-- ==== Sys2Proof/Word.lean ====
section
/-! DEFINITION. The widths of the hardware's values (spec/00_scope.md R5, R7). -/

namespace Sys2Proof

/-- A register value or an instruction word, 16 bits (R5: XLEN, ILEN). -/
abbrev Word := BitVec 16

/-- One cell of data memory, 8 bits (spec/10_state.md R21). -/
abbrev Byte := BitVec 8

/-- One of the four fields of an instruction word, 4 bits (spec/30_encoding.md R51). -/
abbrev Nibble := BitVec 4

/-- The program counter's width, 9 bits (spec/10_state.md R15): a byte offset into the code segment. -/
abbrev CodeAddr := BitVec 9

/-- The index of a general register, 0 to 15 (spec/10_state.md R11). -/
abbrev Reg := Fin 16

end Sys2Proof
end

