-- ==== Sys2Proof/Config.lean ====
section
/-! DEFINITION. The fixed sizes (spec/00_scope.md R5) and the types of the parameters (R6).

The VALUES of the parameters stand where an audit may correct them: `opcodeMap` (OPCODE_MAP) in Decode.lean,
`oddPcPolicy` (ODD_PC_POLICY) and `dmemReset` (DMEM_RESET) in Machine/Params.lean. STEP_BUDGET belongs to the
harness, never to the engine: it is the argument of `runFor` in Safety.lean. No value of this hardware is open
after these, so there is no opaque constant here (spec/40_engine_cycle.md R75: nothing in the engine draws a
value). -/

namespace Sys2Proof

/-- IMEM_SLOTS: slots of instruction memory (R5). -/
@[simp] abbrev Config.imemSlots : Nat := 256

/-- DMEM_BYTES: byte cells of data memory (R5). -/
@[simp] abbrev Config.dmemBytes : Nat := 512

/-- DATA_BASE: the logical address of data byte 0 (R5). -/
@[simp] abbrev Config.dataBase : Nat := 512

/-- ODD_PC_POLICY (R6): what a fetch does when the program counter is odd. -/
inductive OddPcPolicy where
  /-- the fetch raises MisalignedFetchFault -/
  | fault
  /-- the fetch reads slot floor(pc / 2) and the program counter stays odd -/
  | floor
deriving DecidableEq, Repr

/-- What an opcode value selects: one of the eleven mnemonics, or one of the five unassigned values
(spec/30_encoding.md R57, R58). -/
inductive Operation where
  | add | addi | sub | subi | unassigned4 | unassigned5 | mul | muli
  | ld | unassigned9 | sd | unassigned11 | jmp | beqz | hlt | unassigned15
deriving DecidableEq, Repr

/-- OPCODE_MAP (R6): which 4-bit value stands for which operation. The fields that are proofs are what the source
itself settles (spec/30_encoding.md R57): the map is one to one, ADD is 0, and the five unassigned values are 4, 5,
9, 11 and 15. Everything else is decision D2 and is held in `opcodeMap`. -/
structure OpcodeMap where
  opcode : Operation → Nibble
  operation : Nibble → Operation
  operation_opcode : ∀ o, operation (opcode o) = o
  opcode_operation : ∀ v, opcode (operation v) = v
  add_is_zero : opcode .add = 0
  unassigned4_is : opcode .unassigned4 = 4
  unassigned5_is : opcode .unassigned5 = 5
  unassigned9_is : opcode .unassigned9 = 9
  unassigned11_is : opcode .unassigned11 = 11
  unassigned15_is : opcode .unassigned15 = 15

end Sys2Proof
end

