-- ==== Sys2Proof/Syntax.lean ====
section
/-! DEFINITION. The instructions: one constructor per row of spec/opcode_table.json.

Operands stand as the semantics reads them (spec/30_encoding.md R52): a register field as the register it names
(R56), an immediate and a branch offset as the signed integer of the field (R54, R55). A field an instruction
ignores (R60) is no operand. -/

namespace Sys2Proof

inductive Instr where
  /-- `ADD Rd, Rs1, Rs2` (R81) -/
  | add (rd rs1 rs2 : Reg)
  /-- `ADDI Rd, Rs1, imm` (R82) -/
  | addi (rd rs1 : Reg) (imm : Int)
  /-- `SUB Rd, Rs1, Rs2` (R83) -/
  | sub (rd rs1 rs2 : Reg)
  /-- `SUBI Rd, Rs1, imm` (R84) -/
  | subi (rd rs1 : Reg) (imm : Int)
  /-- opcode 4, unassigned (R104) -/
  | unassigned4
  /-- opcode 5, unassigned (R104) -/
  | unassigned5
  /-- `MUL Rd, Rs1, Rs2` (R85) -/
  | mul (rd rs1 rs2 : Reg)
  /-- `MULI Rd, Rs1, imm` (R86) -/
  | muli (rd rs1 : Reg) (imm : Int)
  /-- `LD Rd, Ra, Rb`: loads from Ra + Rb (R91) -/
  | ld (rd ra rb : Reg)
  /-- opcode 9, unassigned (R104) -/
  | unassigned9
  /-- `SD Ra, Rb, Rv`: stores Rv at Ra + Rb (R92) -/
  | sd (ra rb rv : Reg)
  /-- opcode 11, unassigned (R104) -/
  | unassigned11
  /-- `JMP off` (R101) -/
  | jmp (off : Int)
  /-- `BEQZ Rt, off` (R102) -/
  | beqz (rt : Reg) (off : Int)
  /-- `HLT` (R103) -/
  | hlt
  /-- opcode 15, unassigned (R104) -/
  | unassigned15
deriving DecidableEq, Repr

/-- The operation an instruction performs (R57). -/
def Instr.operation : Instr → Operation
  | .add _ _ _ => .add
  | .addi _ _ _ => .addi
  | .sub _ _ _ => .sub
  | .subi _ _ _ => .subi
  | .unassigned4 => .unassigned4
  | .unassigned5 => .unassigned5
  | .mul _ _ _ => .mul
  | .muli _ _ _ => .muli
  | .ld _ _ _ => .ld
  | .unassigned9 => .unassigned9
  | .sd _ _ _ => .sd
  | .unassigned11 => .unassigned11
  | .jmp _ => .jmp
  | .beqz _ _ => .beqz
  | .hlt => .hlt
  | .unassigned15 => .unassigned15

/-- The register an instruction writes, if it writes one (spec/10_state.md R13). -/
def Instr.dest : Instr → Option Reg
  | .add rd _ _ => some rd
  | .addi rd _ _ => some rd
  | .sub rd _ _ => some rd
  | .subi rd _ _ => some rd
  | .unassigned4 => none
  | .unassigned5 => none
  | .mul rd _ _ => some rd
  | .muli rd _ _ => some rd
  | .ld rd _ _ => some rd
  | .unassigned9 => none
  | .sd _ _ _ => none
  | .unassigned11 => none
  | .jmp _ => none
  | .beqz _ _ => none
  | .hlt => none
  | .unassigned15 => none

/-- The branch offset of a JMP or a BEQZ (spec/30_encoding.md R55). -/
def Instr.branchOffset : Instr → Option Int
  | .add _ _ _ => none
  | .addi _ _ _ => none
  | .sub _ _ _ => none
  | .subi _ _ _ => none
  | .unassigned4 => none
  | .unassigned5 => none
  | .mul _ _ _ => none
  | .muli _ _ _ => none
  | .ld _ _ _ => none
  | .unassigned9 => none
  | .sd _ _ _ => none
  | .unassigned11 => none
  | .jmp off => some off
  | .beqz _ off => some off
  | .hlt => none
  | .unassigned15 => none

/-- One of the five unassigned opcode values (spec/30_encoding.md R59). -/
def Instr.isUnassigned : Instr → Bool
  | .add _ _ _ => false
  | .addi _ _ _ => false
  | .sub _ _ _ => false
  | .subi _ _ _ => false
  | .unassigned4 => true
  | .unassigned5 => true
  | .mul _ _ _ => false
  | .muli _ _ _ => false
  | .ld _ _ _ => false
  | .unassigned9 => true
  | .sd _ _ _ => false
  | .unassigned11 => true
  | .jmp _ => false
  | .beqz _ _ => false
  | .hlt => false
  | .unassigned15 => true

/-- One of the six arithmetic instructions (spec/41_arithmetic.md R80). -/
def Instr.isArithmetic : Instr → Bool
  | .add _ _ _ => true
  | .addi _ _ _ => true
  | .sub _ _ _ => true
  | .subi _ _ _ => true
  | .unassigned4 => false
  | .unassigned5 => false
  | .mul _ _ _ => true
  | .muli _ _ _ => true
  | .ld _ _ _ => false
  | .unassigned9 => false
  | .sd _ _ _ => false
  | .unassigned11 => false
  | .jmp _ => false
  | .beqz _ _ => false
  | .hlt => false
  | .unassigned15 => false

end Sys2Proof
end

