-- ==== Sys2Proof/WellFormed.lean ====
section
/-! DEFINITION. Which instructions have an encoding: the ranges of the signed operands
(spec/30_encoding.md R54, R55, R63). A register index is in range by its type (R56). -/

namespace Sys2Proof

/-- The 4-bit immediate of ADDI, SUBI and MULI lies in -8 to 7 (R54). -/
def immOk (imm : Int) : Bool := decide (-8 ≤ imm ∧ imm ≤ 7)

/-- The 8-bit branch offset of JMP and BEQZ lies in -128 to 127 (R55). -/
def offOk (off : Int) : Bool := decide (-128 ≤ off ∧ off ≤ 127)

def Instr.wellFormed : Instr → Bool
  | .add _ _ _ => true
  | .addi _ _ imm => immOk imm
  | .sub _ _ _ => true
  | .subi _ _ imm => immOk imm
  | .unassigned4 => true
  | .unassigned5 => true
  | .mul _ _ _ => true
  | .muli _ _ imm => immOk imm
  | .ld _ _ _ => true
  | .unassigned9 => true
  | .sd _ _ _ => true
  | .unassigned11 => true
  | .jmp off => offOk off
  | .beqz _ off => offOk off
  | .hlt => true
  | .unassigned15 => true

end Sys2Proof
end

