-- ==== Sys2Proof/Decode.lean ====
section
/-! DEFINITION. The instruction word: its layout (spec/30_encoding.md R51, decision D1), the opcode map (R57,
decision D2), the decoder (R58), and after it the encoder (R63). -/

namespace Sys2Proof

/-! ## Layout -/

/-- The four fields of an instruction word (R51, R65). -/
structure Fields where
  opcode : Nibble
  op1 : Nibble
  op2 : Nibble
  op3 : Nibble
deriving DecidableEq, Repr

/-- R51: bits 15:12, 11:8, 7:4 and 3:0. -/
def Fields.ofWord (w : Word) : Fields where
  opcode := w.extractLsb' 12 4
  op1 := w.extractLsb' 8 4
  op2 := w.extractLsb' 4 4
  op3 := w.extractLsb' 0 4

/-- R51: `word = opcode ‖ op1 ‖ op2 ‖ op3`. -/
def Fields.toWord (f : Fields) : Word := f.opcode ++ f.op1 ++ f.op2 ++ f.op3

/-- The source's constructor of an instruction, which cuts each of four integers to its low 4 bits and checks
nothing else (R65). -/
def instructionWord (opcode op1 op2 op3 : Int) : Word :=
  Fields.toWord ⟨BitVec.ofInt 4 opcode, BitVec.ofInt 4 op1, BitVec.ofInt 4 op2, BitVec.ofInt 4 op3⟩

/-- The high byte of a 16-bit value, which a big-endian pair holds at the lower address (spec/20_memory.md R34). -/
def hiByte (w : Word) : Byte := w.extractLsb' 8 8

/-- The low byte of a 16-bit value (spec/20_memory.md R34). -/
def loByte (w : Word) : Byte := w.extractLsb' 0 8

/-- The 16-bit value of a big-endian pair of bytes (spec/20_memory.md R34). -/
def ofBytes (hi lo : Byte) : Word := hi ++ lo

/-! ## Operand fields -/

/-- The register a field names (R56). -/
def regOf (v : Nibble) : Reg := ⟨v.toNat, v.isLt⟩

/-- The field that names a register (R56). -/
def regField (r : Reg) : Nibble := BitVec.ofNat 4 r.val

/-- `sext_4`, the signed reading of a 4-bit field (spec/00_scope.md R7, R54). -/
def sext4 (v : Nibble) : Int := v.toInt

/-- `sext_8`, the signed reading of an 8-bit field (spec/00_scope.md R7, R55). -/
def sext8 (v : Byte) : Int := v.toInt

/-- The branch field `op2 ‖ op3` (R55). -/
def offField (op2 op3 : Nibble) : Byte := op2 ++ op3

/-! ## The opcode map -/

/-- OPCODE_MAP at its default (R57). ADD and the five unassigned values are the source's; the other ten numbers are
the spec's decision D2 (notes/assumptions/2.md). -/
def opcodeMap : OpcodeMap where
  opcode
    | .add => 0
    | .addi => 1
    | .sub => 2
    | .subi => 3
    | .unassigned4 => 4
    | .unassigned5 => 5
    | .mul => 6
    | .muli => 7
    | .ld => 8
    | .unassigned9 => 9
    | .sd => 10
    | .unassigned11 => 11
    | .jmp => 12
    | .beqz => 13
    | .hlt => 14
    | .unassigned15 => 15
  operation v :=
    match v.toNat with
    | 0 => .add
    | 1 => .addi
    | 2 => .sub
    | 3 => .subi
    | 4 => .unassigned4
    | 5 => .unassigned5
    | 6 => .mul
    | 7 => .muli
    | 8 => .ld
    | 9 => .unassigned9
    | 10 => .sd
    | 11 => .unassigned11
    | 12 => .jmp
    | 13 => .beqz
    | 14 => .hlt
    | _ => .unassigned15
  operation_opcode o := by cases o <;> rfl
  opcode_operation := by decide
  add_is_zero := rfl
  unassigned4_is := rfl
  unassigned5_is := rfl
  unassigned9_is := rfl
  unassigned11_is := rfl
  unassigned15_is := rfl

/-! ## The decoder -/

/-- R58, on the fields of a word: the opcode alone selects the operation, and each format reads its operand fields
as R52 says. -/
def decodeFields (m : OpcodeMap) (f : Fields) : Instr :=
  match m.operation f.opcode with
  | .add => .add (regOf f.op1) (regOf f.op2) (regOf f.op3)
  | .addi => .addi (regOf f.op1) (regOf f.op2) (sext4 f.op3)
  | .sub => .sub (regOf f.op1) (regOf f.op2) (regOf f.op3)
  | .subi => .subi (regOf f.op1) (regOf f.op2) (sext4 f.op3)
  | .unassigned4 => .unassigned4
  | .unassigned5 => .unassigned5
  | .mul => .mul (regOf f.op1) (regOf f.op2) (regOf f.op3)
  | .muli => .muli (regOf f.op1) (regOf f.op2) (sext4 f.op3)
  | .ld => .ld (regOf f.op1) (regOf f.op2) (regOf f.op3)
  | .unassigned9 => .unassigned9
  | .sd => .sd (regOf f.op1) (regOf f.op2) (regOf f.op3)
  | .unassigned11 => .unassigned11
  | .jmp => .jmp (sext8 (offField f.op2 f.op3))
  | .beqz => .beqz (regOf f.op1) (sext8 (offField f.op2 f.op3))
  | .hlt => .hlt
  | .unassigned15 => .unassigned15

/-- R58 under a given OPCODE_MAP: total, every word decodes. -/
def decodeWith (m : OpcodeMap) (w : Word) : Instr := decodeFields m (Fields.ofWord w)

/-- R58: the decoder of the machine. -/
def decode (w : Word) : Instr := decodeWith opcodeMap w

/-- Why a list of bytes gives no instruction. No word is illegal (R58); a list can only be too short. -/
inductive DecodeError where
  /-- fewer than the two bytes of one instruction are left -/
  | truncated (bytesLeft : Nat)
deriving DecidableEq, Repr

/-- The decoder on bytes in address order, in the byte view of a slot (spec/20_memory.md R36): opcode and op1 in the
first byte, op2 and op3 in the second. It answers the instruction and the bytes after it. -/
def decodeBytes : List Byte → Except DecodeError (Instr × List Byte)
  | b0 :: b1 :: rest => .ok (decode (ofBytes b0 b1), rest)
  | bs => .error (.truncated bs.length)

/-- The instruction the decoder reads from a word of spec/opcode_table.json, whose bit 0 is the least significant
bit of the 16-bit word; bits above `nbits` are 0 (notes/assumptions/19.md). -/
def decodeTableWord (nbits w : Nat) : Option Instr :=
  if nbits ≤ 16 ∧ w < 2 ^ nbits then
    match decodeBytes [hiByte (BitVec.ofNat 16 w), loByte (BitVec.ofNat 16 w)] with
    | .ok (i, _) => some i
    | .error _ => none
  else none

/-! ## The encoder -/

/-- The 4-bit field of an immediate, `imm mod 16` (R63). -/
def immField (imm : Int) : Nibble := BitVec.ofInt 4 imm

/-- The field op2 of a branch offset, `(off mod 256) >> 4` (R63). -/
def offHi (off : Int) : Nibble := (BitVec.ofInt 8 off).extractLsb' 4 4

/-- The field op3 of a branch offset, `(off mod 256) & 15` (R63). -/
def offLo (off : Int) : Nibble := (BitVec.ofInt 8 off).extractLsb' 0 4

/-- The fields of an instruction (R63); a field the instruction ignores is 0 (decision D9, notes/assumptions/9.md). -/
def encodeFields (m : OpcodeMap) : Instr → Fields
  | .add rd rs1 rs2 => ⟨m.opcode .add, regField rd, regField rs1, regField rs2⟩
  | .addi rd rs1 imm => ⟨m.opcode .addi, regField rd, regField rs1, immField imm⟩
  | .sub rd rs1 rs2 => ⟨m.opcode .sub, regField rd, regField rs1, regField rs2⟩
  | .subi rd rs1 imm => ⟨m.opcode .subi, regField rd, regField rs1, immField imm⟩
  | .unassigned4 => ⟨m.opcode .unassigned4, 0, 0, 0⟩
  | .unassigned5 => ⟨m.opcode .unassigned5, 0, 0, 0⟩
  | .mul rd rs1 rs2 => ⟨m.opcode .mul, regField rd, regField rs1, regField rs2⟩
  | .muli rd rs1 imm => ⟨m.opcode .muli, regField rd, regField rs1, immField imm⟩
  | .ld rd ra rb => ⟨m.opcode .ld, regField rd, regField ra, regField rb⟩
  | .unassigned9 => ⟨m.opcode .unassigned9, 0, 0, 0⟩
  | .sd ra rb rv => ⟨m.opcode .sd, regField ra, regField rb, regField rv⟩
  | .unassigned11 => ⟨m.opcode .unassigned11, 0, 0, 0⟩
  | .jmp off => ⟨m.opcode .jmp, 0, offHi off, offLo off⟩
  | .beqz rt off => ⟨m.opcode .beqz, regField rt, offHi off, offLo off⟩
  | .hlt => ⟨m.opcode .hlt, 0, 0, 0⟩
  | .unassigned15 => ⟨m.opcode .unassigned15, 0, 0, 0⟩

/-- The word of an instruction under a given OPCODE_MAP (R51, R63). -/
def encodeWith (m : OpcodeMap) (i : Instr) : Word := (encodeFields m i).toWord

/-- The word of an instruction (R51, R57, R63). -/
def encode (i : Instr) : Word := encodeWith opcodeMap i

/-- The fields of a word with those its operation ignores set to 0 (R52, R60): JMP ignores op1, HLT and the
unassigned opcodes ignore op1, op2 and op3. -/
def Fields.usedOnly (m : OpcodeMap) (f : Fields) : Fields :=
  match m.operation f.opcode with
  | .add => f
  | .addi => f
  | .sub => f
  | .subi => f
  | .unassigned4 => ⟨f.opcode, 0, 0, 0⟩
  | .unassigned5 => ⟨f.opcode, 0, 0, 0⟩
  | .mul => f
  | .muli => f
  | .ld => f
  | .unassigned9 => ⟨f.opcode, 0, 0, 0⟩
  | .sd => f
  | .unassigned11 => ⟨f.opcode, 0, 0, 0⟩
  | .jmp => ⟨f.opcode, 0, f.op2, f.op3⟩
  | .beqz => f
  | .hlt => ⟨f.opcode, 0, 0, 0⟩
  | .unassigned15 => ⟨f.opcode, 0, 0, 0⟩

end Sys2Proof
end

