-- ==== Sys2Proof/Machine/Memory.lean ====
section
/-! DEFINITION. An array of cells as plain data: a list of (index, value) pairs in one canonical form, indices
strictly rising and no entry equal to what an unlisted index reads as. `dflt k` is what an unlisted index `k` reads
as. Both memories of spec/20_memory.md R30 are held so (notes/assumptions/14.md). -/

namespace Sys2Proof.Machine

variable {α : Type}

/-- The value of cell `k`. -/
def Memory.read (dflt : Nat → α) : List (Nat × α) → Nat → α
  | [], k => dflt k
  | c :: m, k => if c.1 = k then c.2 else Memory.read dflt m k

/-- The list without cell `k`. -/
def Memory.erase (m : List (Nat × α)) (k : Nat) : List (Nat × α) := m.filter (fun c => c.1 != k)

/-- The list with `(k, v)` put before the first greater index. -/
def Memory.insert (k : Nat) (v : α) : List (Nat × α) → List (Nat × α)
  | [] => [(k, v)]
  | c :: m => if k < c.1 then (k, v) :: c :: m else c :: Memory.insert k v m

/-- The array with cell `k` holding `v`; writing what an unlisted cell reads as removes the entry. -/
def Memory.write [DecidableEq α] (dflt : Nat → α) (m : List (Nat × α)) (k : Nat) (v : α) : List (Nat × α) :=
  if v = dflt k then Memory.erase m k else Memory.insert k v (Memory.erase m k)

/-- The canonical form of an array of `size` cells: indices strictly rising and below `size`, no entry equal to
what an unlisted index reads as. -/
abbrev Memory.wf (dflt : Nat → α) (size : Nat) (m : List (Nat × α)) : Prop :=
  m.Pairwise (fun a b => a.1 < b.1) ∧ ∀ c ∈ m, c.1 < size ∧ c.2 ≠ dflt c.1

end Sys2Proof.Machine
end

