-- ==== Sys2Proof/Machine/Params.lean ====
section
/-! DEFINITION. The values of the parameters of spec/00_scope.md R6 that the machine holds, and what a cell that
nothing has written reads as (spec/10_state.md R25). -/

namespace Sys2Proof.Machine

/-- ODD_PC_POLICY at its default (R6, decision D4, notes/assumptions/4.md). -/
def oddPcPolicy : OddPcPolicy := .fault

/-- DMEM_RESET at its default: the value of data byte `j` after reset (R6, R25, decision D6,
notes/assumptions/6.md). -/
def dmemReset (_j : Nat) : Byte := 0x00#8

/-- The value of instruction slot `slot` after reset: unloaded slots are all zero (R25, the source's words). -/
def imemReset (_slot : Nat) : Word := 0x0000#16

end Sys2Proof.Machine
end

