-- ==== Sys2Proof/Machine/State.lean ====
section
/-! DEFINITION. The state of the block: exactly the pieces of spec/10_state.md R10, as plain data. -/

namespace Sys2Proof.Machine

/-- The run-state (spec/10_state.md R18). -/
inductive RunState where
  /-- after reset, before the run: the host may write state; the engine does nothing -/
  | load
  /-- the engine executes one instruction per step -/
  | running
  /-- the engine has executed HLT; nothing changes any more -/
  | halted
  /-- the engine has raised a fault; nothing changes any more; never a normal end of a run -/
  | faulted
deriving DecidableEq, Repr

/-- The fault record (spec/10_state.md R19; spec/60_exceptions.md R111). -/
inductive FaultRecord where
  /-- cause 1, AddressRangeFault: `addr` is the logical address of the LD or SD, `ea` its exact effective address -/
  | addressRange (addr : CodeAddr) (ea : Int)
  /-- cause 2, MisalignedFetchFault: the odd program counter -/
  | misalignedFetch (pc : CodeAddr)
deriving DecidableEq, Repr

/-- Every piece of state of spec/10_state.md R10, and no other. -/
structure State where
  /-- the 16 general registers `x[0..15]` (R11) -/
  x : Vector Word 16
  /-- the program counter (R15) -/
  pc : CodeAddr
  /-- instruction memory, keyed by slot 0 to 255 (R20) -/
  imem : List (Nat × Word)
  /-- data memory, keyed by array index 0 to 511; byte `j` stands at logical address 512 + j (R21) -/
  dmem : List Host.Cell
  /-- the run-state (R18) -/
  run : RunState
  /-- the fault record, `none` when no fault is recorded (R19, R25) -/
  fault : Option FaultRecord
deriving DecidableEq, Repr

/-- Why `step` has no next state. The faults of the hardware (spec/60_exceptions.md R111) are not here: they are
TAKEN, as a next state whose run-state is Faulted (notes/assumptions/11.md). These are the stuck states of
spec/40_engine_cycle.md R70, "It has a step exactly when run = Running" (notes/assumptions/12.md). -/
inductive Fault where
  /-- Raised by `step` when run = Load: the host has not started the run. Safe: the engine does nothing there. -/
  | notStarted
  /-- Raised by `step` when run = Halted: the run has ended normally. Safe: the engine never steps again. -/
  | halted
  /-- Raised by `step` when run = Faulted: the run has ended in a fault. Safe: the engine never steps again. -/
  | faulted
deriving DecidableEq, Repr

/-- Why an instruction is refused. -/
inductive Refusal where
  /-- Raised only by an arm of `exec` whose instruction has no meaning yet. Safe: the model stops. No arm of this
  model raises it. -/
  | notModelled (mnemonic : String)
deriving DecidableEq, Repr

/-- What one step answers. -/
abbrev Result := Host.Outcome State Fault Refusal

/-- The state when reset ends (spec/10_state.md R25). Registers and instruction slots are 0 by the source's words;
`pc` 0 is decision D5 (notes/assumptions/5.md), data bytes are DMEM_RESET by decision D6 (notes/assumptions/6.md),
`run` = Load is decision D8 (notes/assumptions/8.md), no fault is decision D11 (notes/assumptions/11.md). -/
def State.reset : State where
  x := Vector.replicate 16 0x0000#16
  pc := 0
  imem := []
  dmem := []
  run := .load
  fault := none

end Sys2Proof.Machine
end

