-- ==== Sys2Proof/Machine/Ops.lean ====
section
/-! DEFINITION. The named operations over registers and memories that the meanings share (spec/00_scope.md R8), and
taking a fault (spec/60_exceptions.md R114). -/

namespace Sys2Proof.Machine

/-! ## Reduction of integers -/

/-- `trunc16(z)`: the 16-bit vector whose unsigned reading is z mod 65536 (spec/00_scope.md R7). -/
def trunc16 (z : Int) : Word := BitVec.ofInt 16 z

/-- `mod512(z)`: z mod 512 as a 9-bit vector (spec/00_scope.md R7). -/
def mod512 (z : Int) : CodeAddr := BitVec.ofInt 9 z

/-! ## Registers -/

/-- `x[r]` (R8). No register is hardwired (spec/10_state.md R12). -/
def State.readReg (s : State) (r : Reg) : Word := s.x[r]

/-- `x[r] <- v` (R8). -/
def State.writeReg (s : State) (r : Reg) (v : Word) : State := { s with x := s.x.set r v }

/-- `pc <- t` (R8). -/
def State.setPc (s : State) (t : CodeAddr) : State := { s with pc := t }

/-- `run <- r` (R8). -/
def State.setRun (s : State) (r : RunState) : State := { s with run := r }

/-! ## The two memories -/

/-- `IMem[slot]` (R8). -/
def State.instrAt (s : State) (slot : Nat) : Word := Memory.read imemReset s.imem slot

/-- `IMem[slot] <- w`. Only the host's LoadInstr does this (spec/10_state.md R10). -/
def State.putInstr (s : State) (slot : Nat) (w : Word) : State :=
  { s with imem := Memory.write imemReset s.imem slot w }

/-- `DMem[j]` (R8). -/
def State.dataByte (s : State) (j : Nat) : Byte := Memory.read dmemReset s.dmem j

/-- `DMem[j] <- b`. -/
def State.putDataByte (s : State) (j : Nat) (b : Byte) : State :=
  { s with dmem := Memory.write dmemReset s.dmem j b }

/-- `DMem[j] ‖ DMem[j + 1]`, big-endian (spec/20_memory.md R34). -/
def State.dataWord (s : State) (j : Nat) : Word := ofBytes (s.dataByte j) (s.dataByte (j + 1))

/-- The two byte writes of a big-endian 16-bit value (spec/20_memory.md R34): the high byte at `j`. -/
def State.putDataWord (s : State) (j : Nat) (v : Word) : State :=
  (s.putDataByte j (hiByte v)).putDataByte (j + 1) (loByte v)

/-- The effective addresses at which both bytes of a 16-bit access exist: 512 to 1022 (spec/20_memory.md R40). -/
abbrev inDataRange (ea : Int) : Prop := 512 ≤ ea ∧ ea ≤ 1022

/-- `loc = EA - 512`, the array index of the byte at logical address EA (spec/20_memory.md R32). -/
def dataLoc (ea : Int) : Nat := (ea - Config.dataBase).toNat

/-- `MemRead(EA, 2)` (spec/20_memory.md R40): `none` where it raises AddressRangeFault(EA). -/
def State.memRead (s : State) (ea : Int) : Option Word :=
  if inDataRange ea then some (s.dataWord (dataLoc ea)) else none

/-- `MemWrite(EA, 2, v)` (spec/20_memory.md R41): `none`, no byte written, where it raises AddressRangeFault(EA). -/
def State.memWrite (s : State) (ea : Int) (v : Word) : Option State :=
  if inDataRange ea then some (s.putDataWord (dataLoc ea) v) else none

/-! ## Taking a fault -/

/-- `raise F(info)` (spec/60_exceptions.md R114): the record is written and the run-state becomes Faulted; nothing is
saved, no handler is entered, and nothing else changes. There is no return beside it: no instruction returns from a
fault, and only a reset leaves Faulted (R116). -/
def State.raise (s : State) (r : FaultRecord) : State := { s with run := .faulted, fault := some r }

/-- The code of a fault (spec/60_exceptions.md R111). -/
def FaultRecord.code : FaultRecord → Nat
  | .addressRange _ _ => 1
  | .misalignedFetch _ => 2

/-- `A`, the logical address of the instruction in execution: the fetch has advanced `pc` by 2
(spec/10_state.md R15, notes/assumptions/11.md). -/
def State.currentAddr (s : State) : CodeAddr := mod512 ((s.pc.toNat : Int) - 2)

/-- `raise AddressRangeFault(EA)` in the execute phase of an LD or SD (spec/60_exceptions.md R111, R112). -/
def State.raiseAddressRange (s : State) (ea : Int) : State := s.raise (.addressRange s.currentAddr ea)

/-! ## The byte view -/

/-- The byte the host sees at logical address `a`, 0 to 1023 (spec/20_memory.md R36): the two bytes of a slot at
2s and 2s + 1, and data byte j at 512 + j. -/
def State.byteView (s : State) (a : Nat) : Byte :=
  if a < Config.dataBase then
    if a % 2 = 0 then hiByte (s.instrAt (a / 2)) else loByte (s.instrAt (a / 2))
  else s.dataByte (a - Config.dataBase)

/-- The source's State Dump (spec/20_memory.md R36): every logical address with the high and the low nibble of its
byte. Its text layout is out of scope (spec/00_scope.md R4). -/
def State.dump (s : State) : List (Nat × Nibble × Nibble) :=
  (List.range 1024).map (fun a => (a, (s.byteView a).extractLsb' 4 4, (s.byteView a).extractLsb' 0 4))

end Sys2Proof.Machine
end

