-- ==== Sys2Proof/Machine/Operands.lean ====
section
/-! DEFINITION. The operand forms: the signed reading of a register, the reduction of a result to a register or to
the program counter, the one addressing mode, and the branch target. -/

namespace Sys2Proof.Machine

/-- `sval(x[r])`, the signed reading of a register (spec/00_scope.md R7, spec/10_state.md R14). -/
def State.sval (s : State) (r : Reg) : Int := (s.readReg r).toInt

/-- The effective address of LD and SD: the exact sum of two signed register values, an integer in -65536 to 65534,
not reduced to any width (spec/42_load_store.md R90, decision D7, notes/assumptions/7.md). -/
def State.effectiveAddress (s : State) (ra rb : Reg) : Int := s.sval ra + s.sval rb

/-- Where a taken branch goes: `mod512(pc + off - 2)` on the program counter the fetch has advanced
(spec/43_control_flow.md R100). -/
def State.branchTarget (s : State) (off : Int) : CodeAddr := mod512 ((s.pc.toNat : Int) + off - 2)

end Sys2Proof.Machine
end

