-- ==== Sys2Proof/Machine/Flags.lean ====
section
/-! DEFINITION. There are no flags, no condition codes and no predicate registers (spec/10_state.md R22), so no
instruction computes one. The only condition of the machine is the test of BEQZ on a register. -/

namespace Sys2Proof.Machine

/-- BEQZ's test: all 16 bits of the register are zero (spec/43_control_flow.md R102). -/
def State.regIsZero (s : State) (r : Reg) : Bool := s.readReg r == 0x0000#16

end Sys2Proof.Machine
end

