-- ==== Sys2Proof/Machine/Arithmetic.lean ====
section
/-! DEFINITION. The six arithmetic instructions (spec/41_arithmetic.md). Each computes a mathematical integer and
reduces it with `trunc16`; the program counter is not touched and no fault is possible (R80). All reads are of the
state before the write (spec/40_engine_cycle.md R76). -/

namespace Sys2Proof.Machine

/-- `x[rd] <- trunc16(z)` and on to the next instruction (R80). -/
def State.finishArith (s : State) (rd : Reg) (z : Int) : Result := .next (s.writeReg rd (trunc16 z))

/-- ADD (R81). -/
def execAdd (rd rs1 rs2 : Reg) (s : State) : Result := s.finishArith rd (s.sval rs1 + s.sval rs2)

/-- ADDI (R82). -/
def execAddi (rd rs1 : Reg) (imm : Int) (s : State) : Result := s.finishArith rd (s.sval rs1 + imm)

/-- SUB (R83): the minuend is `x[rs1]`. -/
def execSub (rd rs1 rs2 : Reg) (s : State) : Result := s.finishArith rd (s.sval rs1 - s.sval rs2)

/-- SUBI (R84): the signed immediate is subtracted. -/
def execSubi (rd rs1 : Reg) (imm : Int) (s : State) : Result := s.finishArith rd (s.sval rs1 - imm)

/-- MUL (R85): the low 16 bits of the product. -/
def execMul (rd rs1 rs2 : Reg) (s : State) : Result := s.finishArith rd (s.sval rs1 * s.sval rs2)

/-- MULI (R86). -/
def execMuli (rd rs1 : Reg) (imm : Int) (s : State) : Result := s.finishArith rd (s.sval rs1 * imm)

end Sys2Proof.Machine
end

