-- ==== Sys2Proof/Machine/Control.lean ====
section
/-! DEFINITION. JMP, BEQZ and HLT (spec/43_control_flow.md). -/

namespace Sys2Proof.Machine

/-- JMP (R101): no check of the target is made, an odd one included (R100). -/
def execJmp (off : Int) (s : State) : Result := .next (s.setPc (s.branchTarget off))

/-- BEQZ (R102): not taken, `pc` keeps the value the fetch gave it. -/
def execBeqz (rt : Reg) (off : Int) (s : State) : Result :=
  if s.regIsZero rt then .next (s.setPc (s.branchTarget off)) else .next s

/-- HLT (R103; spec/40_engine_cycle.md R72): `run <- Halted`. -/
def execHlt (s : State) : Result := .next (s.setRun .halted)

end Sys2Proof.Machine
end

