-- ==== Sys2Proof/Machine/LoadStore.lean ====
section
/-! DEFINITION. LD and SD (spec/42_load_store.md). An effective address outside 512 to 1022 takes
AddressRangeFault before any register or byte is written (spec/60_exceptions.md R112). -/

namespace Sys2Proof.Machine

/-- LD (R91). -/
def execLd (rd ra rb : Reg) (s : State) : Result :=
  match s.memRead (s.effectiveAddress ra rb) with
  | some v => .next (s.writeReg rd v)
  | none => .next (s.raiseAddressRange (s.effectiveAddress ra rb))

/-- SD (R92). -/
def execSd (ra rb rv : Reg) (s : State) : Result :=
  match s.memWrite (s.effectiveAddress ra rb) (s.readReg rv) with
  | some t => .next t
  | none => .next (s.raiseAddressRange (s.effectiveAddress ra rb))

end Sys2Proof.Machine
end

