-- ==== Sys2Proof/Machine/Unassigned.lean ====
section
/-! DEFINITION. The five unassigned opcode values (spec/43_control_flow.md R104; spec/30_encoding.md R59): each
executes as a no-operation, "an explicit, intentional no-op". The fetch has advanced `pc` by 2. -/

namespace Sys2Proof.Machine

/-- Nothing happens in the execute phase (R104). -/
def State.skip (s : State) : Result := .next s

/-- Opcode 4 (R104). -/
def execUnassigned4 (s : State) : Result := s.skip

/-- Opcode 5 (R104). -/
def execUnassigned5 (s : State) : Result := s.skip

/-- Opcode 9 (R104). -/
def execUnassigned9 (s : State) : Result := s.skip

/-- Opcode 11 (R104). -/
def execUnassigned11 (s : State) : Result := s.skip

/-- Opcode 15 (R104). -/
def execUnassigned15 (s : State) : Result := s.skip

end Sys2Proof.Machine
end

