-- ==== Sys2Proof/Machine/Dispatch.lean ====
section
/-! DEFINITION. The execute phase of spec/40_engine_cycle.md R71: one arm per instruction. The state it is given is
the one the fetch has left, with `pc` already advanced. -/

namespace Sys2Proof.Machine

def exec (i : Instr) (s : State) : Host.Outcome State Fault Refusal :=
  match i with
  | .add rd rs1 rs2 => Sys2Proof.Machine.execAdd rd rs1 rs2 s
  | .addi rd rs1 imm => Sys2Proof.Machine.execAddi rd rs1 imm s
  | .sub rd rs1 rs2 => Sys2Proof.Machine.execSub rd rs1 rs2 s
  | .subi rd rs1 imm => Sys2Proof.Machine.execSubi rd rs1 imm s
  | .unassigned4 => Sys2Proof.Machine.execUnassigned4 s
  | .unassigned5 => Sys2Proof.Machine.execUnassigned5 s
  | .mul rd rs1 rs2 => Sys2Proof.Machine.execMul rd rs1 rs2 s
  | .muli rd rs1 imm => Sys2Proof.Machine.execMuli rd rs1 imm s
  | .ld rd ra rb => Sys2Proof.Machine.execLd rd ra rb s
  | .unassigned9 => Sys2Proof.Machine.execUnassigned9 s
  | .sd ra rb rv => Sys2Proof.Machine.execSd ra rb rv s
  | .unassigned11 => Sys2Proof.Machine.execUnassigned11 s
  | .jmp off => Sys2Proof.Machine.execJmp off s
  | .beqz rt off => Sys2Proof.Machine.execBeqz rt off s
  | .hlt => Sys2Proof.Machine.execHlt s
  | .unassigned15 => Sys2Proof.Machine.execUnassigned15 s

end Sys2Proof.Machine
end

