-- ==== Sys2Proof/Machine/Engine.lean ====
section
/-! DEFINITION. The parts of one engine step around the execute phase (spec/40_engine_cycle.md R70, R71): the fetch,
and what there is outside the run-state Running. -/

namespace Sys2Proof.Machine

/-- What a fetch gives. -/
inductive Fetched where
  /-- the word read, and the state with `pc` advanced -/
  | word (w : Word) (s : State)
  /-- the fetch raised MisalignedFetchFault and left this state -/
  | raised (s : State)
deriving DecidableEq, Repr

/-- The slot the program counter selects, `uval(pc) / 2` (spec/10_state.md R15). -/
def State.fetchSlot (s : State) : Nat := s.pc.toNat / 2

/-- `pc <- mod512(pc + 2)` (spec/10_state.md R16). -/
def State.advancePc (s : State) : State := s.setPc (mod512 ((s.pc.toNat : Int) + 2))

/-- An odd program counter (spec/10_state.md R17). -/
abbrev oddPc (pc : CodeAddr) : Prop := pc.toNat % 2 = 1

/-- The fetch (R71): an odd `pc` raises MisalignedFetchFault with nothing read and `pc` unchanged
(spec/60_exceptions.md R113), unless ODD_PC_POLICY is `floor`; otherwise the slot is read and `pc` advanced. -/
def State.fetch (p : OddPcPolicy) (s : State) : Fetched :=
  if p = .fault ∧ oddPc s.pc then .raised (s.raise (.misalignedFetch s.pc))
  else .word (s.instrAt s.fetchSlot) s.advancePc

/-- Outside Running the engine has no step (R70): a stuck state under a name (notes/assumptions/12.md). The arm
for Running is never taken by `step`. -/
def State.noStep (s : State) : Result :=
  match s.run with
  | .load => .fault .notStarted
  | .running => .next s
  | .halted => .fault .halted
  | .faulted => .fault .faulted

/-- The even program counter a placed instruction is fetched at: `pc` with bit 0 cleared. -/
def State.alignedPc (s : State) : CodeAddr := s.pc &&& 0x1FE#9

/-- The state in which the next step runs the word `w`: the run-state Running, `pc` even, `w` in the slot `pc`
selects (notes/assumptions/19.md). -/
def State.placeWord (s : State) (w : Word) : State :=
  (((s.setPc s.alignedPc).setRun .running).putInstr (s.alignedPc.toNat / 2) w)

end Sys2Proof.Machine
end

