-- ==== Sys2Proof/Machine/Step.lean ====
section
/-! DEFINITION. One step of the engine (spec/40_engine_cycle.md R71). -/

namespace Sys2Proof.Machine

/-- R71 under a given OPCODE_MAP and ODD_PC_POLICY: fetch, decode, execute. -/
def stepUnder (m : OpcodeMap) (p : OddPcPolicy) (s : State) : Host.Outcome State Fault Refusal :=
  if s.run = .running then
    match s.fetch p with
    | .word w t => exec (decodeWith m w) t
    | .raised t => .next t
  else s.noStep

/-- The step of the machine: R71 at the default parameters of spec/00_scope.md R6. -/
def step (s : State) : Host.Outcome State Fault Refusal := stepUnder opcodeMap oddPcPolicy s

/-- `s` made ready so that the very next step fetches and runs the instruction word `w` (notes/assumptions/19.md);
bits above `nbits` are 0. -/
def State.withFetchWord (s : State) (nbits w : Nat) : State := s.placeWord (BitVec.ofNat 16 (w % 2 ^ nbits))

end Sys2Proof.Machine
end

