-- ==== Sys2Proof/Machine/HostOps.lean ====
section
/-! DEFINITION. The host's side of the block's boundary (spec/70_reset_and_hazards.md R130, R138 to R143): the load
operations, start, reset and the read accessors, as operations on the state beside `step`
(notes/assumptions/17.md). -/

namespace Sys2Proof.Machine

/-! ## The 10-bit address value (spec/30_encoding.md R64) -/

/-- AddressRef: a segment flag, 0 code and 1 data, and a 9-bit offset (R64). -/
structure AddressRef where
  segment : BitVec 1
  offset : BitVec 9
deriving DecidableEq, Repr

/-- The construction of an address value "truncates offset to 9 bits" (R64). -/
def AddressRef.make (segment : BitVec 1) (offset : Int) : AddressRef := ⟨segment, BitVec.ofInt 9 offset⟩

/-- The segment flag in bit 9, the offset in bits 8:0 (R64). -/
def AddressRef.toBits (a : AddressRef) : BitVec 10 := a.segment ++ a.offset

/-- The address value of a 10-bit vector (R64). -/
def AddressRef.ofBits (v : BitVec 10) : AddressRef := ⟨v.extractLsb' 9 1, v.extractLsb' 0 9⟩

/-- The logical address: `segment × 512 + offset` (R64). -/
def AddressRef.logical (a : AddressRef) : Nat := a.segment.toNat * 512 + a.offset.toNat

/-! ## The operations that change state -/

/-- The host's moves that may change state. -/
inductive HostOp where
  /-- reset (R130) -/
  | reset
  /-- `LoadInstr(addr, word)` (R138) -/
  | loadInstr (addr : AddressRef) (word : Word)
  /-- `StoreData(addr, value)` (R139) -/
  | storeData (addr : AddressRef) (value : Word)
  /-- `SetReg(index, value)`, any integer as index (R140) -/
  | setReg (index : Int) (value : Word)
  /-- `Start` (R141) -/
  | start
deriving DecidableEq, Repr

/-- What the host is told. -/
inductive HostReply where
  /-- done, or ignored without an error (R140) -/
  | ok
  /-- the operation's own error; no state change (R138, R139; spec/60_exceptions.md R125) -/
  | error
  /-- attempted outside Load; no state change (R143) -/
  | refused
deriving DecidableEq, Repr

/-- The state a host move leaves and the reply to it. -/
structure HostResult where
  state : State
  reply : HostReply
deriving DecidableEq, Repr

/-- The precondition `run = Load` of every write operation; outside it the operation is refused (R143). -/
def State.whenLoading (s : State) (r : HostResult) : HostResult := if s.run = .load then r else ⟨s, .refused⟩

/-- R138; the check of the segment is decision D10 (notes/assumptions/10.md). -/
def hostLoadInstr (addr : AddressRef) (word : Word) (s : State) : HostResult :=
  s.whenLoading <|
    if addr.segment = 0 ∧ addr.offset.toNat % 2 = 0 then ⟨s.putInstr (addr.offset.toNat / 2) word, .ok⟩
    else ⟨s, .error⟩

/-- R139; both checks are decision D10 (notes/assumptions/10.md). -/
def hostStoreData (addr : AddressRef) (value : Word) (s : State) : HostResult :=
  s.whenLoading <|
    if addr.segment = 1 ∧ addr.offset ≠ 511 then ⟨s.putDataWord addr.offset.toNat value, .ok⟩
    else ⟨s, .error⟩

/-- R140: an index outside 0 to 15 is ignored, and that is no error. -/
def hostSetReg (index : Int) (value : Word) (s : State) : HostResult :=
  s.whenLoading <|
    if 0 ≤ index ∧ index ≤ 15 then ⟨s.writeReg (Fin.ofNat 16 index.toNat) value, .ok⟩ else ⟨s, .ok⟩

/-- R141: `pc` is not changed. -/
def hostStart (s : State) : HostResult := s.whenLoading ⟨s.setRun .running, .ok⟩

/-- R130: allowed at any time, from any run-state; nothing survives. -/
def hostReset (_s : State) : HostResult := ⟨State.reset, .ok⟩

/-- A host move. -/
def hostApply (op : HostOp) (s : State) : HostResult :=
  match op with
  | .reset => hostReset s
  | .loadInstr addr word => hostLoadInstr addr word s
  | .storeData addr value => hostStoreData addr value s
  | .setReg index value => hostSetReg index value s
  | .start => hostStart s

/-- The state after a list of host moves, in order. -/
def hostRun : List HostOp → State → State
  | [], s => s
  | op :: ops, s => hostRun ops (hostApply op s).state

/-! ## The read accessors (R142)

Each answers nothing while run = Running, when the host cannot read state (R143, notes/assumptions/15.md). They are
functions of the state: none changes it. -/

/-- A read outside Running (R142, R143). -/
def State.whenReadable {α : Type} (s : State) (v : α) : Option α := if s.run = .running then none else some v

/-- `ReadReg(i)` (R142). -/
def hostReadReg (i : Reg) (s : State) : Option Word := s.whenReadable (s.readReg i)

/-- `ReadInstr(s)` (R142). -/
def hostReadInstr (slot : Fin 256) (s : State) : Option Word := s.whenReadable (s.instrAt slot)

/-- `ReadDataByte(j)` (R142). -/
def hostReadDataByte (j : Fin 512) (s : State) : Option Byte := s.whenReadable (s.dataByte j)

/-- `ReadRunState`: the run-state and, when it is Faulted, the fault record (R142). -/
def hostReadRunState (s : State) : Option (RunState × Option FaultRecord) :=
  s.whenReadable (s.run, if s.run = .faulted then s.fault else none)

/-- The State Dump, a read of all 1024 logical addresses (spec/20_memory.md R36). -/
def hostDump (s : State) : Option (List (Nat × Nibble × Nibble)) := s.whenReadable s.dump

end Sys2Proof.Machine
end

