-- ==== Sys2Proof/Machine/System.lean ====
section
/-! DEFINITION. The engine and the host together (spec/40_engine_cycle.md R70; spec/70_reset_and_hazards.md R132,
R133): what may happen to the block, one event at a time. -/

namespace Sys2Proof.Machine

/-- One event in the life of the block. -/
inductive Event where
  /-- a move of the host -/
  | host (op : HostOp)
  /-- a step of the engine -/
  | engine
deriving DecidableEq, Repr

/-- `t` follows `s` by the event, under a given OPCODE_MAP and ODD_PC_POLICY. -/
def Transition (m : OpcodeMap) (p : OddPcPolicy) (e : Event) (s t : State) : Prop :=
  match e with
  | .host op => t = (hostApply op s).state
  | .engine => stepUnder m p s = .next t

/-- The states some sequence of events leads to from reset. -/
inductive Reachable (m : OpcodeMap) (p : OddPcPolicy) : State → Prop where
  | reset : Reachable m p State.reset
  | event {s t : State} (e : Event) : Reachable m p s → Transition m p e s t → Reachable m p t

end Sys2Proof.Machine
end

