-- ==== Sys2Proof/Safety.lean ====
section
/-! DEFINITION. What claims are stated in: how a run ends, the invariant of the block, and what two states have in
common. -/

namespace Sys2Proof.Machine

/-! ## Runs -/

/-- How a bounded run ends. -/
inductive RunResult where
  /-- a normal end: the engine executed HLT (spec/40_engine_cycle.md R72) -/
  | halted (s : State)
  /-- the engine raised a fault; not a final state (R72) -/
  | faulted (s : State)
  /-- the run was never started -/
  | notStarted (s : State)
  /-- the harness's STEP_BUDGET is used up; never to be read as halted (spec/92_eei_decisions.md D13) -/
  | outOfBudget (s : State)
  /-- `step` gave no next state although run = Running; the model never does so -/
  | stopped (s : State)
deriving DecidableEq, Repr

/-- A run under a STEP_BUDGET of `budget` steps, which belongs to the harness and does not change what a step does
(spec/00_scope.md R6; spec/40_engine_cycle.md R74). -/
def runFor : Nat → State → RunResult
  | budget, s =>
    match s.run with
    | .load => .notStarted s
    | .halted => .halted s
    | .faulted => .faulted s
    | .running =>
      match budget with
      | 0 => .outOfBudget s
      | n + 1 =>
        match step s with
        | .next t => runFor n t
        | .fault _ => .stopped s
        | .refused _ => .stopped s

/-! ## The invariant -/

/-- A fault record says what happened (spec/60_exceptions.md R111, R114): cause 1 only for an effective address out
of range, with `pc` just past the instruction; cause 2 only for an odd `pc`, which is unchanged. -/
def FaultRecord.truthful (pc : CodeAddr) : FaultRecord → Prop
  | .addressRange addr ea =>
    ¬ inDataRange ea ∧ -65536 ≤ ea ∧ ea ≤ 65534 ∧ pc = mod512 ((addr.toNat : Int) + 2)
  | .misalignedFetch q => oddPc q ∧ pc = q

/-- What holds of the block at all times: both memories in canonical form, a fault recorded exactly in Faulted, the
record truthful, and `pc` still 0 in Load (spec/70_reset_and_hazards.md R141). -/
structure Inv (s : State) : Prop where
  imem_wf : Memory.wf imemReset Config.imemSlots s.imem
  dmem_wf : Memory.wf dmemReset Config.dmemBytes s.dmem
  fault_iff : s.run = .faulted ↔ s.fault ≠ none
  record_truthful : ∀ r, s.fault = some r → r.truthful s.pc
  load_pc : s.run = .load → s.pc = 0

/-- Every JMP and BEQZ in instruction memory has an even offset (spec/70_reset_and_hazards.md R134, point 4). -/
def EvenBranches (s : State) : Prop :=
  ∀ slot, slot < 256 → ∀ off, (decode (s.instrAt slot)).branchOffset = some off → off % 2 = 0

/-! ## Exact results -/

/-- The mathematical integer an arithmetic instruction computes from the registers, before the reduction to 16 bits
(spec/41_arithmetic.md R80 to R86). -/
def exactResultOf (s : State) : Instr → Option Int
  | .add _ rs1 rs2 => some ((s.readReg rs1).toInt + (s.readReg rs2).toInt)
  | .addi _ rs1 imm => some ((s.readReg rs1).toInt + imm)
  | .sub _ rs1 rs2 => some ((s.readReg rs1).toInt - (s.readReg rs2).toInt)
  | .subi _ rs1 imm => some ((s.readReg rs1).toInt - imm)
  | .unassigned4 => none
  | .unassigned5 => none
  | .mul _ rs1 rs2 => some ((s.readReg rs1).toInt * (s.readReg rs2).toInt)
  | .muli _ rs1 imm => some ((s.readReg rs1).toInt * imm)
  | .ld _ _ _ => none
  | .unassigned9 => none
  | .sd _ _ _ => none
  | .unassigned11 => none
  | .jmp _ => none
  | .beqz _ _ => none
  | .hlt => none
  | .unassigned15 => none

/-! ## What two states have in common -/

/-- Every general register is the same. -/
def SameRegs (s t : State) : Prop := ∀ r, t.readReg r = s.readReg r

/-- Every general register but `rd` is the same. -/
def SameRegsBut (rd : Reg) (s t : State) : Prop := ∀ r, r ≠ rd → t.readReg r = s.readReg r

/-- Every instruction slot is the same. -/
def SameInstrs (s t : State) : Prop := ∀ k, t.instrAt k = s.instrAt k

/-- Every data byte is the same. -/
def SameData (s t : State) : Prop := ∀ j, t.dataByte j = s.dataByte j

/-- Every data byte is the same but the two of a 16-bit access at the effective address `ea`. -/
def SameDataBut (ea : Int) (s t : State) : Prop :=
  ∀ j, j ≠ dataLoc ea → j ≠ dataLoc ea + 1 → t.dataByte j = s.dataByte j

/-- The run-state and the fault record are the same. -/
def SameControl (s t : State) : Prop := t.run = s.run ∧ t.fault = s.fault

/-- Everything is the same but the register `rd` (spec/40_engine_cycle.md R77, arithmetic and LD). -/
def OnlyReg (rd : Reg) (s t : State) : Prop :=
  SameRegsBut rd s t ∧ t.pc = s.pc ∧ SameControl s t ∧ SameInstrs s t ∧ SameData s t

/-- Everything is the same but the two data bytes at the effective address `ea` (R77, SD). -/
def OnlyDataWord (ea : Int) (s t : State) : Prop :=
  SameRegs s t ∧ t.pc = s.pc ∧ SameControl s t ∧ SameInstrs s t ∧ SameDataBut ea s t

/-- Everything is the same but `pc` (R77, JMP and BEQZ). -/
def OnlyPc (s t : State) : Prop := SameRegs s t ∧ SameControl s t ∧ SameInstrs s t ∧ SameData s t

/-- Everything is the same but the run-state and the fault record (R77 for HLT; spec/60_exceptions.md R114). -/
def OnlyControl (s t : State) : Prop := SameRegs s t ∧ t.pc = s.pc ∧ SameInstrs s t ∧ SameData s t

end Sys2Proof.Machine
end

