-- ==== Sys2Proof/Certificates/Slice0/Obligations.lean ====
section
/-! DEFINITION. The statements for the provers. Each docstring names the rule of spec/ it formalises; where a clause
rests on a decision of the spec (92_eei_decisions.md) or of the model, the docstring names the log entry.

`m` is any OPCODE_MAP and `p` any ODD_PC_POLICY (spec/00_scope.md R6): a statement over all of them does not rest on
decisions D2 and D4. `decode`, `step` and `Sys2Proof.core` stand for the default parameters. -/

open Sys2Proof Sys2Proof.Machine

/-! ## Encoding -/

/-- Decoding the encoding of a well-formed instruction gives it back, under every OPCODE_MAP
(spec/30_encoding.md R51, R52, R57, R58, R63; the layout is decision D1, log 1). -/
def Obligations.DecodeEncodeRoundTrip : Prop :=
  ∀ (m : OpcodeMap) (i : Instr), i.wellFormed = true → decodeWith m (encodeWith m i) = i

/-- Encoding what a word decodes to gives the word back, with the fields its operation ignores set to 0
(spec/30_encoding.md R60, R63; zero in ignored fields is decision D9, log 9). -/
def Obligations.EncodeDecodeKeepsUsedFields : Prop :=
  ∀ (m : OpcodeMap) (w : Word), encodeWith m (decodeWith m w) = ((Fields.ofWord w).usedOnly m).toWord

/-- Ignored fields have no effect (spec/30_encoding.md R60): op1 of JMP; op1, op2 and op3 of HLT and of the five
unassigned opcodes. -/
def Obligations.IgnoredFieldsHaveNoEffect : Prop :=
  ∀ (m : OpcodeMap) (a b c a' b' c' : Nibble),
    decodeFields m ⟨m.opcode .jmp, a, b, c⟩ = decodeFields m ⟨m.opcode .jmp, a', b, c⟩ ∧
    ∀ o : Operation, o = .hlt ∨ o = .unassigned4 ∨ o = .unassigned5 ∨ o = .unassigned9 ∨ o = .unassigned11 ∨
        o = .unassigned15 →
      decodeFields m ⟨m.opcode o, a, b, c⟩ = decodeFields m ⟨m.opcode o, a', b', c'⟩

/-- Decoding is total and needs the opcode only: every word decodes to a well-formed instruction of the operation its
bits 15:12 stand for (spec/30_encoding.md R58, marked derived there; bits 15:12 are decision D1, log 1). -/
def Obligations.EveryWordDecodesByItsOpcode : Prop :=
  ∀ (m : OpcodeMap) (w : Word),
    (decodeWith m w).wellFormed = true ∧ (decodeWith m w).operation = m.operation (w.extractLsb' 12 4)

/-- The words of spec/95_test_vectors.md section 2.1 (E1 to E15) decode as listed there (decisions D1 and D2, log 1
and log 2). -/
def Obligations.ListedWordsDecode : Prop :=
  decode 0x0000#16 = .add 0 0 0 ∧ decode 0x1003#16 = .addi 0 0 3 ∧ decode 0x110F#16 = .addi 1 0 (-1) ∧
  decode 0x3118#16 = .subi 1 1 (-8) ∧ decode 0x6FED#16 = .mul 15 14 13 ∧ decode 0x8012#16 = .ld 0 1 2 ∧
  decode 0xA123#16 = .sd 1 2 3 ∧ decode 0xC0FA#16 = .jmp (-6) ∧ decode 0xC57E#16 = .jmp 126 ∧
  decode 0xD108#16 = .beqz 1 8 ∧ decode 0xD380#16 = .beqz 3 (-128) ∧ decode 0xE000#16 = .hlt ∧
  decode 0xEFFF#16 = .hlt ∧ decode 0x4ABC#16 = .unassigned4 ∧ decode 0xFFFF#16 = .unassigned15

/-- The immediate of ADDI, SUBI and MULI is the signed reading of op3, by the map of spec/30_encoding.md R54. -/
def Obligations.ImmediateIsSignedField : Prop :=
  ∀ (m : OpcodeMap) (a b v : Nibble) (imm : Int),
    imm = (if v.toNat < 8 then (v.toNat : Int) else (v.toNat : Int) - 16) →
      -8 ≤ imm ∧ imm ≤ 7 ∧
      decodeFields m ⟨m.opcode .addi, a, b, v⟩ = .addi (regOf a) (regOf b) imm ∧
      decodeFields m ⟨m.opcode .subi, a, b, v⟩ = .subi (regOf a) (regOf b) imm ∧
      decodeFields m ⟨m.opcode .muli, a, b, v⟩ = .muli (regOf a) (regOf b) imm

/-- The branch offset of JMP and BEQZ is the signed reading of op2 and op3 put together, op2 above op3
(spec/30_encoding.md R55), which in the word is bits 7:0 (decision D1, log 1). -/
def Obligations.BranchOffsetIsSignedField : Prop :=
  ∀ (m : OpcodeMap) (t a b : Nibble) (u : Nat) (off : Int),
    u = 16 * a.toNat + b.toNat → off = (if u < 128 then (u : Int) else (u : Int) - 256) →
      -128 ≤ off ∧ off ≤ 127 ∧
      decodeFields m ⟨m.opcode .jmp, t, a, b⟩ = .jmp off ∧
      decodeFields m ⟨m.opcode .beqz, t, a, b⟩ = .beqz (regOf t) off ∧
      (Fields.toWord ⟨m.opcode .jmp, t, a, b⟩).toNat % 256 = u

/-- The constructor of an instruction cuts each of its four arguments to the low 4 bits and checks nothing else, so
every word is an instruction, and the decoder takes it (spec/30_encoding.md R65). -/
def Obligations.InstructionConstructorTruncates : Prop :=
  (∀ (m : OpcodeMap) (o a b c : Int),
    ((Fields.ofWord (instructionWord o a b c)).opcode.toNat : Int) = o % 16 ∧
    ((Fields.ofWord (instructionWord o a b c)).op1.toNat : Int) = a % 16 ∧
    ((Fields.ofWord (instructionWord o a b c)).op2.toNat : Int) = b % 16 ∧
    ((Fields.ofWord (instructionWord o a b c)).op3.toNat : Int) = c % 16 ∧
    ∃ i : Instr, i.wellFormed = true ∧ decodeWith m (instructionWord o a b c) = i) ∧
  ∀ w : Word, ∃ o a b c : Int, instructionWord o a b c = w

/-! ## Arithmetic -/

/-- ADD (spec/41_arithmetic.md R81): its word (decision D1, log 1), its result reduced mod 65536, and its frame. It
completes for all operands and states. -/
def Obligations.AddWritesWrappedSum : Prop :=
  (∀ d a b : Nibble, decode (0x0#4 ++ d ++ a ++ b) = .add (regOf d) (regOf a) (regOf b)) ∧
  ∀ (rd rs1 rs2 : Reg) (s : State), ∃ t, exec (.add rd rs1 rs2) s = .next t ∧
    ((t.readReg rd).toNat : Int) = ((s.readReg rs1).toInt + (s.readReg rs2).toInt) % 65536 ∧ OnlyReg rd s t

/-- ADDI (R82): its word (decisions D1 and D2, log 1 and log 2), its result and its frame. -/
def Obligations.AddiWritesWrappedSum : Prop :=
  (∀ d a v : Nibble, decode (0x1#4 ++ d ++ a ++ v) = .addi (regOf d) (regOf a) v.toInt) ∧
  ∀ (rd rs1 : Reg) (imm : Int) (s : State), ∃ t, exec (.addi rd rs1 imm) s = .next t ∧
    ((t.readReg rd).toNat : Int) = ((s.readReg rs1).toInt + imm) % 65536 ∧ OnlyReg rd s t

/-- SUB (R83): its word (decisions D1 and D2, log 1 and log 2), its result, minuend first, and its frame. -/
def Obligations.SubWritesWrappedDifference : Prop :=
  (∀ d a b : Nibble, decode (0x2#4 ++ d ++ a ++ b) = .sub (regOf d) (regOf a) (regOf b)) ∧
  ∀ (rd rs1 rs2 : Reg) (s : State), ∃ t, exec (.sub rd rs1 rs2) s = .next t ∧
    ((t.readReg rd).toNat : Int) = ((s.readReg rs1).toInt - (s.readReg rs2).toInt) % 65536 ∧ OnlyReg rd s t

/-- SUBI (R84): its word (decisions D1 and D2, log 1 and log 2), its result, the signed immediate subtracted, and its
frame. -/
def Obligations.SubiWritesWrappedDifference : Prop :=
  (∀ d a v : Nibble, decode (0x3#4 ++ d ++ a ++ v) = .subi (regOf d) (regOf a) v.toInt) ∧
  ∀ (rd rs1 : Reg) (imm : Int) (s : State), ∃ t, exec (.subi rd rs1 imm) s = .next t ∧
    ((t.readReg rd).toNat : Int) = ((s.readReg rs1).toInt - imm) % 65536 ∧ OnlyReg rd s t

/-- MUL (R85): its word (decisions D1 and D2, log 1 and log 2), the low 16 bits of the product, and its frame. -/
def Obligations.MulWritesLowProduct : Prop :=
  (∀ d a b : Nibble, decode (0x6#4 ++ d ++ a ++ b) = .mul (regOf d) (regOf a) (regOf b)) ∧
  ∀ (rd rs1 rs2 : Reg) (s : State), ∃ t, exec (.mul rd rs1 rs2) s = .next t ∧
    ((t.readReg rd).toNat : Int) = ((s.readReg rs1).toInt * (s.readReg rs2).toInt) % 65536 ∧ OnlyReg rd s t

/-- MULI (R86): its word (decisions D1 and D2, log 1 and log 2), the low 16 bits of the product with the signed
immediate, and its frame. -/
def Obligations.MuliWritesLowProduct : Prop :=
  (∀ d a v : Nibble, decode (0x7#4 ++ d ++ a ++ v) = .muli (regOf d) (regOf a) v.toInt) ∧
  ∀ (rd rs1 : Reg) (imm : Int) (s : State), ∃ t, exec (.muli rd rs1 imm) s = .next t ∧
    ((t.readReg rd).toNat : Int) = ((s.readReg rs1).toInt * imm) % 65536 ∧ OnlyReg rd s t

/-- What the six have in common (R80): a step that executes one of them completes for all operand values without a
fault, writes the exact integer reduced to 16 bits to its destination, computed from the registers before the write,
leaves `pc` where the fetch put it, and changes nothing else. -/
def Obligations.ArithmeticStepNeverFaults : Prop :=
  ∀ (m : OpcodeMap) (p : OddPcPolicy) (s : State) (i : Instr), s.run = .running →
    ¬ (p = .fault ∧ s.pc.toNat % 2 = 1) → decodeWith m (s.instrAt (s.pc.toNat / 2)) = i → i.isArithmetic = true →
      ∃ (rd : Reg) (z : Int) (t : State), i.dest = some rd ∧ exactResultOf s i = some z ∧
        stepUnder m p s = .next t ∧ ((t.readReg rd).toNat : Int) = z % 65536 ∧
        (t.pc.toNat : Int) = ((s.pc.toNat : Int) + 2) % 512 ∧
        SameRegsBut rd s t ∧ SameControl s t ∧ SameInstrs s t ∧ SameData s t

/-- The low 16 bits of a sum, difference or product are the same under the unsigned reading of the registers
(R87, point 1, marked derived there). -/
def Obligations.UnsignedReadingGivesSameResult : Prop :=
  ∀ (rd rs1 rs2 : Reg) (s : State),
    (∃ t, exec (.add rd rs1 rs2) s = .next t ∧
      ((t.readReg rd).toNat : Int) = (((s.readReg rs1).toNat : Int) + (s.readReg rs2).toNat) % 65536) ∧
    (∃ t, exec (.sub rd rs1 rs2) s = .next t ∧
      ((t.readReg rd).toNat : Int) = (((s.readReg rs1).toNat : Int) - (s.readReg rs2).toNat) % 65536) ∧
    (∃ t, exec (.mul rd rs1 rs2) s = .next t ∧
      ((t.readReg rd).toNat : Int) = (((s.readReg rs1).toNat : Int) * (s.readReg rs2).toNat) % 65536)

/-! ## Load and store -/

/-- LD in range (spec/42_load_store.md R91, spec/20_memory.md R40): its word (decisions D1 and D2, log 1 and log 2),
the big-endian pair at the exact sum of the two registers (decision D7, log 7), any alignment, and its frame. -/
def Obligations.LoadReadsBigEndianPair : Prop :=
  (∀ d a b : Nibble, decode (0x8#4 ++ d ++ a ++ b) = .ld (regOf d) (regOf a) (regOf b)) ∧
  ∀ (rd ra rb : Reg) (s : State) (ea : Int), ea = (s.readReg ra).toInt + (s.readReg rb).toInt →
    512 ≤ ea → ea ≤ 1022 →
      ∃ t, exec (.ld rd ra rb) s = .next t ∧
        (t.readReg rd).toNat = 256 * (s.dataByte (ea - 512).toNat).toNat + (s.dataByte (ea - 511).toNat).toNat ∧
        OnlyReg rd s t

/-- SD in range (R92, spec/20_memory.md R41): its word (decisions D1 and D2, log 1 and log 2), the two bytes at the
exact sum of the two registers (decision D7, log 7), any alignment, and its frame: every other byte, by array index
and by logical address, reads as before. -/
def Obligations.StoreWritesBigEndianPair : Prop :=
  (∀ a b v : Nibble, decode (0xA#4 ++ a ++ b ++ v) = .sd (regOf a) (regOf b) (regOf v)) ∧
  ∀ (ra rb rv : Reg) (s : State) (ea : Int), ea = (s.readReg ra).toInt + (s.readReg rb).toInt →
    512 ≤ ea → ea ≤ 1022 →
      ∃ t, exec (.sd ra rb rv) s = .next t ∧
        (t.dataByte (ea - 512).toNat).toNat = (s.readReg rv).toNat / 256 ∧
        (t.dataByte (ea - 511).toNat).toNat = (s.readReg rv).toNat % 256 ∧
        OnlyDataWord (s.effectiveAddress ra rb) s t ∧
        ∀ a : Nat, (a : Int) ≠ s.effectiveAddress ra rb → (a : Int) ≠ s.effectiveAddress ra rb + 1 →
          t.byteView a = s.byteView a

/-- LD and SD out of range (spec/20_memory.md R40, R41; spec/60_exceptions.md R111, R112, R114) take
AddressRangeFault: the record holds the instruction's own address and the exact effective address, the run-state is
Faulted, and no register, byte, slot or `pc` changes. That they fault is decision D3 (log 3), and that the fault is a
next state is decision D11 (log 11). -/
def Obligations.OutOfRangeAccessTakesFault : Prop :=
  ∀ (i : Instr) (ra rb : Reg) (s : State) (ea : Int),
    ((∃ rd, i = .ld rd ra rb) ∨ ∃ rv, i = .sd ra rb rv) →
    ea = (s.readReg ra).toInt + (s.readReg rb).toInt → (ea < 512 ∨ 1022 < ea) →
      ∃ (t : State) (addr : CodeAddr), exec i s = .next t ∧ t.run = .faulted ∧
        t.fault = some (.addressRange addr ea) ∧ (addr.toNat : Int) = ((s.pc.toNat : Int) - 2) % 512 ∧
        OnlyControl s t

/-- The round trip of spec/42_load_store.md R93: after an SD of a value at an in-range address, odd ones included,
with no store between, an LD from the same address into any register gives the value, and the host's byte view shows
its two bytes. -/
def Obligations.StoreThenLoadRoundTrip : Prop :=
  ∀ (ra rb rv : Reg) (s t : State) (a : Int), s.effectiveAddress ra rb = a → inDataRange a →
    exec (.sd ra rb rv) s = .next t →
      t.byteView a.toNat = hiByte (s.readReg rv) ∧ t.byteView (a.toNat + 1) = loByte (s.readReg rv) ∧
      ∀ (rd la lb : Reg) (u : State), SameData t u → u.effectiveAddress la lb = a →
        ∃ v, exec (.ld rd la lb) u = .next v ∧ v.readReg rd = s.readReg rv

/-- Data is big-endian (spec/20_memory.md R34): a stored value has its high byte at the address and its low byte
after it, for SD and for the host's StoreData; a loaded value is read so; and of two overlapping values the byte at
`a + 1` is the low byte of the one and the high byte of the other. -/
def Obligations.DataIsBigEndian : Prop :=
  (∀ (ra rb rv : Reg) (s t : State), inDataRange (s.effectiveAddress ra rb) → exec (.sd ra rb rv) s = .next t →
    t.dataByte (dataLoc (s.effectiveAddress ra rb)) = (s.readReg rv).extractLsb' 8 8 ∧
    t.dataByte (dataLoc (s.effectiveAddress ra rb) + 1) = (s.readReg rv).extractLsb' 0 8 ∧
    ∀ (ra' rb' rv' : Reg) (u v : State), SameData t u →
      u.effectiveAddress ra' rb' = s.effectiveAddress ra rb + 1 → inDataRange (u.effectiveAddress ra' rb') →
      exec (.sd ra' rb' rv') u = .next v → ∀ (rd la lb : Reg) (w : State), SameData v w →
        (w.effectiveAddress la lb = s.effectiveAddress ra rb → ∃ y, exec (.ld rd la lb) w = .next y ∧
          y.readReg rd = (s.readReg rv).extractLsb' 8 8 ++ (u.readReg rv').extractLsb' 8 8) ∧
        (w.effectiveAddress la lb = s.effectiveAddress ra rb + 1 → ∃ y, exec (.ld rd la lb) w = .next y ∧
          y.readReg rd = u.readReg rv')) ∧
  ∀ (addr : AddressRef) (value : Word) (s : State), (hostStoreData addr value s).reply = .ok →
    (hostStoreData addr value s).state.dataByte addr.offset.toNat = value.extractLsb' 8 8 ∧
    (hostStoreData addr value s).state.dataByte (addr.offset.toNat + 1) = value.extractLsb' 0 8

/-- Instruction memory never changes while the engine runs, however many steps it takes, and an SD below 512 does not
reach it but faults (spec/20_memory.md R47, R31; the fault is decision D3, log 3). -/
def Obligations.InstructionMemoryIsImmutable : Prop :=
  (∀ (k : Nat) (s t : State), Host.Core.run Sys2Proof.core k s = .next t → SameInstrs s t) ∧
  (∀ (m : OpcodeMap) (p : OddPcPolicy) (s t : State), stepUnder m p s = .next t → SameInstrs s t) ∧
  ∀ (ra rb rv : Reg) (s : State), s.effectiveAddress ra rb < 512 →
    ∃ t, exec (.sd ra rb rv) s = .next t ∧ t.run = .faulted ∧ SameInstrs s t ∧ SameData s t

/-- No instruction can read instruction memory: what an instruction does, and everything it leaves, is the same
whatever instruction memory holds (spec/20_memory.md R31, R33). -/
def Obligations.ExecuteCannotSeeInstructionMemory : Prop :=
  ∀ (i : Instr) (s t : State) (mem : List (Nat × Word)), exec i s = .next t →
    exec i { s with imem := mem } = .next { t with imem := mem }

/-! ## Control flow -/

/-- JMP (spec/43_control_flow.md R101, R100): its word, op1 ignored (decisions D1 and D2, log 1 and log 2); the
target is the instruction's own address plus the offset, mod 512 in both directions (decision D14, log 13); and its
frame. -/
def Obligations.JmpGoesToOwnAddressPlusOffset : Prop :=
  (∀ x a b : Nibble, decode (0xC#4 ++ x ++ a ++ b) = .jmp (a ++ b : BitVec 8).toInt) ∧
  ∀ (off : Int) (s : State), ∃ t, exec (.jmp off) s = .next t ∧ OnlyPc s t ∧
    (t.pc.toNat : Int) = ((s.pc.toNat : Int) + off - 2) % 512 ∧
    ∀ a : CodeAddr, (s.pc.toNat : Int) = ((a.toNat : Int) + 2) % 512 →
      (t.pc.toNat : Int) = ((a.toNat : Int) + off) % 512

/-- BEQZ (R102, R100): its word (decisions D1 and D2, log 1 and log 2); taken exactly when all 16 bits of the
register are zero, to the target of JMP, mod 512 in both directions (decision D14, log 13); not taken, `pc` stays
where the fetch put it; and its frame. -/
def Obligations.BeqzBranchesExactlyOnZero : Prop :=
  (∀ r a b : Nibble, decode (0xD#4 ++ r ++ a ++ b) = .beqz (regOf r) (a ++ b : BitVec 8).toInt) ∧
  ∀ (rt : Reg) (off : Int) (s : State), ∃ t, exec (.beqz rt off) s = .next t ∧ OnlyPc s t ∧
    (s.readReg rt = 0 → (t.pc.toNat : Int) = ((s.pc.toNat : Int) + off - 2) % 512) ∧
    (s.readReg rt ≠ 0 → t.pc = s.pc)

/-- HLT (R103): its word, operands ignored (decisions D1 and D2, log 1 and log 2); the run-state becomes Halted and
nothing else changes. -/
def Obligations.HltHalts : Prop :=
  (∀ a b c : Nibble, decode (0xE#4 ++ a ++ b ++ c) = .hlt) ∧
  ∀ s : State, ∃ t, exec .hlt s = .next t ∧ t.run = .halted ∧ t.fault = s.fault ∧ OnlyControl s t

/-- The five opcode values 4, 5, 9, 11 and 15 (spec/30_encoding.md R59) are no-operations: a step that fetches a
word with such an opcode completes, advances `pc` by 2, and changes nothing else, whatever op1, op2 and op3 are. -/
def Obligations.UnassignedOpcodesAreSkipped : Prop :=
  (∀ (m : OpcodeMap) (p : OddPcPolicy) (s : State) (f : Fields), s.run = .running →
    ¬ (p = .fault ∧ s.pc.toNat % 2 = 1) → s.instrAt (s.pc.toNat / 2) = f.toWord →
    (f.opcode = 4 ∨ f.opcode = 5 ∨ f.opcode = 9 ∨ f.opcode = 11 ∨ f.opcode = 15) →
      stepUnder m p s = .next { s with pc := s.pc + 2 }) ∧
  ∀ (i : Instr) (s : State), (i = .unassigned4 ∨ i = .unassigned5 ∨ i = .unassigned9 ∨ i = .unassigned11 ∨
      i = .unassigned15) → exec i s = .next s

/-! ## The engine -/

/-- A step runs the decoded instruction (spec/40_engine_cycle.md R71): in Running with an even `pc`, the step is the
execute phase of the instruction the selected slot decodes to, on the state with `pc` advanced by 2; in particular of
any well-formed instruction whose encoding the slot holds. -/
def Obligations.StepRunsDecodedInstruction : Prop :=
  ∀ s : State, s.run = .running → s.pc.toNat % 2 = 0 →
    step s = exec (decode (s.instrAt (s.pc.toNat / 2))) { s with pc := s.pc + 2 } ∧
    ∀ i : Instr, i.wellFormed = true → s.instrAt (s.pc.toNat / 2) = encode i →
      step s = exec i { s with pc := s.pc + 2 }

/-- A fetch at an odd `pc` takes MisalignedFetchFault (spec/60_exceptions.md R113, R114): the record holds the odd
`pc`, the run-state is Faulted, and nothing else changes. That it faults is decision D4 (log 4). -/
def Obligations.OddFetchTakesFault : Prop :=
  ∀ (m : OpcodeMap) (s : State), s.run = .running → s.pc.toNat % 2 = 1 →
    ∃ t, stepUnder m .fault s = .next t ∧ step s = .next t ∧ t.run = .faulted ∧
      t.fault = some (.misalignedFetch s.pc) ∧ OnlyControl s t

/-- Under ODD_PC_POLICY = floor there is no such fault (spec/10_state.md R17, spec/60_exceptions.md R113): slot
floor(pc / 2) is executed and `pc` is advanced by 2, so it keeps its parity through the fetch (log 4). -/
def Obligations.FloorPolicyFetchesTheSlot : Prop :=
  ∀ (m : OpcodeMap) (s : State), s.run = .running →
    stepUnder m .floor s = exec (decodeWith m (s.instrAt (s.pc.toNat / 2))) { s with pc := s.pc + 2 } ∧
    (s.pc + 2).toNat % 2 = s.pc.toNat % 2

/-- The engine has a step exactly when run = Running (R70), and outside it `step` answers a stuck state by name (the
model's choice, log 12). -/
def Obligations.EngineStepsExactlyWhileRunning : Prop :=
  ∀ (m : OpcodeMap) (p : OddPcPolicy) (s : State),
    ((∃ t, stepUnder m p s = .next t) ↔ s.run = .running) ∧
    (s.run = .load → stepUnder m p s = .fault .notStarted) ∧
    (s.run = .halted → stepUnder m p s = .fault .halted) ∧
    (s.run = .faulted → stepUnder m p s = .fault .faulted)

/-- The frame rule (R77): a step that executes an instruction without a fault changes, besides the `pc` advance of
the fetch, only what the instruction's rule names. -/
def Obligations.EveryStepObeysTheFrameRule : Prop :=
  ∀ (m : OpcodeMap) (p : OddPcPolicy) (s t : State) (i : Instr), stepUnder m p s = .next t →
    ¬ (p = .fault ∧ s.pc.toNat % 2 = 1) → decodeWith m (s.instrAt (s.pc.toNat / 2)) = i → t.run ≠ .faulted →
      (∀ r, i.dest ≠ some r → t.readReg r = s.readReg r) ∧
      ((∀ ra rb rv, i ≠ .sd ra rb rv) → SameData s t) ∧
      (∀ ra rb rv, i = .sd ra rb rv → SameDataBut (s.effectiveAddress ra rb) s t) ∧
      (i.branchOffset = none → t.pc = s.pc + 2) ∧
      (∀ rt off, i = .beqz rt off → s.readReg rt ≠ 0 → t.pc = s.pc + 2) ∧
      t.run = (if i = .hlt then .halted else .running) ∧ t.fault = s.fault ∧ SameInstrs s t

/-- The end of a run (R72): a step ends it normally exactly when it executes a word whose opcode is HLT; then `pc` is
the HLT's address plus 2, everything else is as before, and the engine has no further step. A step that ends the run
neither normally nor in a fault is followed by another step: there is no other way for a run to end. -/
def Obligations.RunEndsNormallyExactlyOnHlt : Prop :=
  ∀ (m : OpcodeMap) (p : OddPcPolicy) (s t : State), stepUnder m p s = .next t →
    (t.run = .halted ↔ ¬ (p = .fault ∧ s.pc.toNat % 2 = 1) ∧
      m.operation (Fields.ofWord (s.instrAt (s.pc.toNat / 2))).opcode = .hlt) ∧
    (t.run = .halted → t.pc = s.pc + 2 ∧ SameRegs s t ∧ SameData s t ∧ SameInstrs s t ∧
      ∀ u, stepUnder m p t ≠ .next u) ∧
    (t.run ≠ .halted → t.run ≠ .faulted → ∃ u, stepUnder m p t = .next u)

/-- When a step faults (spec/60_exceptions.md R111, R115): exactly on an odd `pc` under ODD_PC_POLICY = fault, or on
an LD or SD out of range; the record names which, with the instruction's own address; no register, byte or slot has
changed, and `pc` is advanced in the second case only. The faults are decisions D3, D4 and D11 (log 3, 4, 11). -/
def Obligations.StepFaultsExactlyWhenTheRulesSay : Prop :=
  ∀ (m : OpcodeMap) (p : OddPcPolicy) (s t : State) (i : Instr), stepUnder m p s = .next t →
    decodeWith m (s.instrAt (s.pc.toNat / 2)) = i →
      (t.run = .faulted ↔ (p = .fault ∧ s.pc.toNat % 2 = 1) ∨
        ∃ ra rb, ((∃ rd, i = .ld rd ra rb) ∨ ∃ rv, i = .sd ra rb rv) ∧ ¬ inDataRange (s.effectiveAddress ra rb)) ∧
      (t.run = .faulted → SameRegs s t ∧ SameData s t ∧ SameInstrs s t ∧
        ((p = .fault ∧ s.pc.toNat % 2 = 1 ∧ t.fault = some (.misalignedFetch s.pc) ∧ t.pc = s.pc) ∨
         (¬ (p = .fault ∧ s.pc.toNat % 2 = 1) ∧ t.pc = s.pc + 2 ∧
          ∃ ra rb, ((∃ rd, i = .ld rd ra rb) ∨ ∃ rv, i = .sd ra rb rv) ∧
            t.fault = some (.addressRange s.pc (s.effectiveAddress ra rb)))))

/-- The transitions of the run-state, all of them (spec/70_reset_and_hazards.md R133; the run-states Load and Faulted
are decision D8, log 8): reset leads to Load from anywhere; Start leads from Load to Running and does nothing
elsewhere; the other host moves keep the run-state; a step starts in Running and ends in Running, Halted or Faulted;
and out of Halted and Faulted only reset leads. -/
def Obligations.RunStateTransitionsAreTheListedOnes : Prop :=
  ∀ (m : OpcodeMap) (p : OddPcPolicy) (e : Event) (s t : State), Transition m p e s t →
    (e = .host .reset → t.run = .load) ∧
    (e = .host .start → (s.run = .load → t.run = .running) ∧ (s.run ≠ .load → t = s)) ∧
    (∀ op, e = .host op → op ≠ .reset → op ≠ .start → t.run = s.run) ∧
    (e = .engine → s.run = .running ∧ (t.run = .running ∨ t.run = .halted ∨ t.run = .faulted)) ∧
    (s.run = .halted ∨ s.run = .faulted → e = .host .reset ∨ t = s)

/-! ## Invariants -/

/-- The invariant of the block holds after reset (spec/10_state.md R25; log 5, 6, 8, 11, 14). -/
def Obligations.InvariantHoldsAtReset : Prop := Inv State.reset

/-- Every step keeps the invariant, under all parameters: both memories canonical (log 14), a fault recorded exactly
in Faulted and truthful (spec/60_exceptions.md R111, R114), `pc` 0 in Load. -/
def Obligations.EveryStepKeepsTheInvariant : Prop :=
  (∀ s t : State, Inv s → step s = .next t → Inv t) ∧
  ∀ (m : OpcodeMap) (p : OddPcPolicy) (s t : State), Inv s → stepUnder m p s = .next t → Inv t

/-- Every host move keeps the invariant. What each move does is spec/70_reset_and_hazards.md R130 and R138 to R143;
that both memories are canonical is the model's own clause (log 14), and what a reset leaves rests on decisions D5, D6,
D8 and D11 (log 5, 6, 8, 11). -/
def Obligations.EveryHostMoveKeepsTheInvariant : Prop :=
  ∀ (op : HostOp) (s : State), Inv s → Inv (hostApply op s).state

/-- Whatever the host and the engine do from reset, the invariant holds, and in particular in Load no fault is
recorded and `pc` is 0 (R130, R141, R133). It follows from the three statements before it. That both memories are
canonical is the model's own clause (log 14), and what a reset leaves rests on decisions D5, D6, D8 and D11 (log 5, 6,
8, 11). -/
def Obligations.ReachableStatesMeetTheInvariant : Prop :=
  ∀ (m : OpcodeMap) (p : OddPcPolicy) (s : State), Reachable m p s →
    Inv s ∧ (s.run = .load → s.pc = 0 ∧ s.fault = none)

/-- When every JMP and BEQZ in instruction memory has an even offset, a run that begins at an even `pc` never takes
MisalignedFetchFault, however long it is (spec/10_state.md R17, spec/70_reset_and_hazards.md R134, point 4). -/
def Obligations.EvenBranchesNeverMisalignTheFetch : Prop :=
  ∀ s : State, EvenBranches s → s.pc.toNat % 2 = 0 → s.fault = none →
    ∀ (k : Nat) (t : State), Host.Core.run Sys2Proof.core k s = .next t →
      t.pc.toNat % 2 = 0 ∧ ∀ q, t.fault ≠ some (.misalignedFetch q)

/-- With no HLT in instruction memory a started run never halts: after any number of steps it is still running, or it
has taken a fault on the way (spec/40_engine_cycle.md R74). -/
def Obligations.WithoutHltTheRunNeverHalts : Prop :=
  ∀ s : State, s.run = .running → (∀ slot, slot < 256 → decode (s.instrAt slot) ≠ .hlt) →
    ∀ k : Nat, (∃ t, Host.Core.run Sys2Proof.core k s = .next t ∧ t.run = .running) ∨
      ∃ j t, j ≤ k ∧ Host.Core.run Sys2Proof.core j s = .next t ∧ t.run = .faulted

/-- A jump to itself runs for ever and changes nothing (spec/43_control_flow.md R101, R100; the wrap is decision D14,
log 13). -/
def Obligations.JumpToItselfRunsForever : Prop :=
  ∀ s : State, s.run = .running → s.pc.toNat % 2 = 0 → decode (s.instrAt (s.pc.toNat / 2)) = .jmp 0 →
    ∀ k : Nat, Host.Core.run Sys2Proof.core k s = .next s

/-- The harness's step budget changes nothing (spec/92_eei_decisions.md D13, log 16): a bounded run reports halted
exactly when the unbounded one reaches a halted state within the budget, and a used-up budget is never a halt. -/
def Obligations.BudgetNeverReportsAFalseHalt : Prop :=
  ∀ (n : Nat) (s t : State), s.run = .running →
    (runFor n s = .halted t ↔ ∃ k, k ≤ n ∧ Host.Core.run Sys2Proof.core k s = .next t ∧ t.run = .halted) ∧
    (runFor n s = .outOfBudget t ↔ Host.Core.run Sys2Proof.core n s = .next t ∧ t.run = .running)

/-- Two states whose memories are canonical and read the same hold the same lists (spec/10_state.md R20, R21; the
canonical form is the model's, log 14). -/
def Obligations.CanonicalMemoriesAreEqual : Prop :=
  ∀ s t : State, Inv s → Inv t → SameInstrs s t → SameData s t → t.imem = s.imem ∧ t.dmem = s.dmem

/-! ## Reset and the host -/

/-- What reset leaves, from any state (spec/10_state.md R25, spec/70_reset_and_hazards.md R130): registers and slots 0
by the source's words, each slot an ADD R0,R0,R0; `pc` 0 is decision D5 (log 5), data bytes 0 decision D6 (log 6), the
run-state Load decision D8 (log 8), no fault decision D11 (log 11). -/
def Obligations.ResetLeavesTheListedValues : Prop :=
  ∀ s : State, (hostApply .reset s).state = State.reset ∧ (hostApply .reset s).reply = .ok ∧
    (∀ r, State.reset.readReg r = 0) ∧ State.reset.pc = 0 ∧
    (∀ k, State.reset.instrAt k = 0 ∧ decode (State.reset.instrAt k) = .add 0 0 0) ∧
    (∀ j, State.reset.dataByte j = 0) ∧ State.reset.run = .load ∧ State.reset.fault = none

/-- LoadInstr (R138; the segment check is decision D10, log 10): in Load, an even offset in the code segment stores
the word in its slot and nothing else changes; anything else is an error without a change. -/
def Obligations.LoadInstrStoresOrRejects : Prop :=
  ∀ (addr : AddressRef) (w : Word) (s : State), s.run = .load →
    (addr.segment = 0 → addr.offset.toNat % 2 = 0 → ∃ t, hostApply (.loadInstr addr w) s = ⟨t, .ok⟩ ∧
      t.instrAt (addr.offset.toNat / 2) = w ∧
      (∀ k, k ≠ addr.offset.toNat / 2 → t.instrAt k = s.instrAt k) ∧
      SameRegs s t ∧ SameData s t ∧ t.pc = s.pc ∧ SameControl s t) ∧
    (addr.segment = 1 ∨ addr.offset.toNat % 2 = 1 → hostApply (.loadInstr addr w) s = ⟨s, .error⟩)

/-- StoreData (R139; both refusals are decision D10, log 10): in Load, an offset of the data segment below 511, odd
ones included, gets the value's two bytes and nothing else changes; anything else is an error without a change. -/
def Obligations.StoreDataWritesOrRejects : Prop :=
  ∀ (addr : AddressRef) (v : Word) (s : State), s.run = .load →
    (addr.segment = 1 → addr.offset.toNat < 511 → ∃ t, hostApply (.storeData addr v) s = ⟨t, .ok⟩ ∧
      (t.dataByte addr.offset.toNat).toNat = v.toNat / 256 ∧
      (t.dataByte (addr.offset.toNat + 1)).toNat = v.toNat % 256 ∧
      (∀ j, j ≠ addr.offset.toNat → j ≠ addr.offset.toNat + 1 → t.dataByte j = s.dataByte j) ∧
      SameRegs s t ∧ SameInstrs s t ∧ t.pc = s.pc ∧ SameControl s t) ∧
    (addr.segment = 0 ∨ addr.offset.toNat = 511 → hostApply (.storeData addr v) s = ⟨s, .error⟩)

/-- SetReg (R140): in Load, an index 0 to 15 gets the value and nothing else changes; any other index is ignored
without an error. -/
def Obligations.SetRegWritesOrIgnores : Prop :=
  ∀ (index : Int) (v : Word) (s : State), s.run = .load →
    (∀ r : Reg, index = r.val → ∃ t, hostApply (.setReg index v) s = ⟨t, .ok⟩ ∧ t.readReg r = v ∧ OnlyReg r s t) ∧
    (index < 0 ∨ 15 < index → hostApply (.setReg index v) s = ⟨s, .ok⟩)

/-- Start (R141, R131): it changes the run-state alone, and from a state that meets the invariant the first
instruction executed is the one in slot 0, at address 0 (decision D5, log 5; the run-states are decision D8, log 8). -/
def Obligations.StartRunsSlotZeroFirst : Prop :=
  ∀ s : State, s.run = .load →
    ∃ t, hostApply .start s = ⟨t, .ok⟩ ∧ t.run = .running ∧ t.fault = s.fault ∧ OnlyControl s t ∧
      (Inv s → step t = exec (decode (s.instrAt 0)) { t with pc := 2 })

/-- Outside Load every host write and Start is refused without a change; while Running the host can read nothing
(R143; log 15). Reset alone is always possible (R130). -/
def Obligations.HostIsRefusedOutsideLoad : Prop :=
  ∀ s : State,
    (s.run ≠ .load → ∀ op, op ≠ .reset → hostApply op s = ⟨s, .refused⟩) ∧
    (s.run = .running → (∀ i, hostReadReg i s = none) ∧ (∀ k, hostReadInstr k s = none) ∧
      (∀ j, hostReadDataByte j s = none) ∧ hostReadRunState s = none ∧ hostDump s = none) ∧
    (hostApply .reset s).state.run = .load

/-- The read accessors (R142) and the dump (spec/20_memory.md R36): each answers the state's own value, and the fault
record is shown in Faulted only. That they answer in Faulted, and so in every run-state but Running, is the model's
reading of R142 and R143 (log 15). -/
def Obligations.ReadAccessorsShowTheState : Prop :=
  ∀ s : State, s.run ≠ .running →
    (∀ i, hostReadReg i s = some (s.readReg i)) ∧ (∀ k : Fin 256, hostReadInstr k s = some (s.instrAt k)) ∧
    (∀ j : Fin 512, hostReadDataByte j s = some (s.dataByte j)) ∧
    (s.run = .faulted → hostReadRunState s = some (.faulted, s.fault)) ∧
    (s.run ≠ .faulted → hostReadRunState s = some (s.run, none)) ∧
    hostDump s = some s.dump

/-- The byte view of all 1024 logical addresses, and the dump that lists it (spec/20_memory.md R36). -/
def Obligations.ByteViewShowsSlotsAndCells : Prop :=
  ∀ s : State,
    (∀ slot, slot ≤ 255 →
      s.byteView (2 * slot) = (Fields.ofWord (s.instrAt slot)).opcode ++ (Fields.ofWord (s.instrAt slot)).op1 ∧
      s.byteView (2 * slot + 1) = (Fields.ofWord (s.instrAt slot)).op2 ++ (Fields.ofWord (s.instrAt slot)).op3) ∧
    (∀ j, j ≤ 511 → s.byteView (512 + j) = s.dataByte j) ∧
    s.dump.length = 1024 ∧
    ∀ a, a < 1024 → ∃ hi lo : Nibble, s.dump[a]? = some (a, hi, lo) ∧ s.byteView a = hi ++ lo

/-- The 10-bit address value (spec/30_encoding.md R64; that the flag is bit 9 is derived in spec/20_memory.md R30):
its number is segment × 512 + offset, it is put together and taken apart without loss, and its construction cuts the
offset to 9 bits. -/
def Obligations.AddressValueIsSegmentAndOffset : Prop :=
  (∀ a : AddressRef, AddressRef.ofBits a.toBits = a ∧ a.toBits.toNat = a.segment.toNat * 512 + a.offset.toNat ∧
    a.logical = a.toBits.toNat) ∧
  (∀ v : BitVec 10, (AddressRef.ofBits v).toBits = v) ∧
  ∀ (g : BitVec 1) (off : Int), (AddressRef.make g off).segment = g ∧
    ((AddressRef.make g off).offset.toNat : Int) = off % 512
end

