-- ==== Sys2Proof/Laws/Decode.lean ====
section
/-! SUPPORT. The small laws of the instruction word: fields and bytes put together and taken apart, and the ranges of
the signed fields. -/

namespace Sys2Proof

@[simp] theorem Fields.ofWord_toWord (f : Fields) : Fields.ofWord f.toWord = f := by
  obtain ⟨a, b, c, d⟩ := f
  simp only [Fields.ofWord, Fields.toWord, Fields.mk.injEq]
  refine ⟨?_, ?_, ?_, ?_⟩ <;>
  · ext i hi
    simp only [BitVec.getElem_extractLsb', BitVec.getLsbD_append]
    have h4 : i < 4 := hi
    interval_cases i <;> simp

@[simp] theorem Fields.toWord_ofWord (w : Word) : (Fields.ofWord w).toWord = w := by
  apply BitVec.eq_of_getLsbD_eq
  intro i hi
  simp only [Fields.ofWord, Fields.toWord, BitVec.getLsbD_append, BitVec.getLsbD_extractLsb']
  interval_cases i <;> simp

@[simp] theorem hiByte_ofBytes (hi lo : Byte) : hiByte (ofBytes hi lo) = hi := by
  ext i h
  simp only [hiByte, ofBytes, BitVec.getElem_extractLsb', BitVec.getLsbD_append]
  interval_cases i <;> simp [BitVec.getLsbD_eq_getElem]

@[simp] theorem loByte_ofBytes (hi lo : Byte) : loByte (ofBytes hi lo) = lo := by
  ext i h
  simp only [loByte, ofBytes, BitVec.getElem_extractLsb', BitVec.getLsbD_append]
  interval_cases i <;> simp [BitVec.getLsbD_eq_getElem]

@[simp] theorem ofBytes_hi_lo (w : Word) : ofBytes (hiByte w) (loByte w) = w := by
  apply BitVec.eq_of_getLsbD_eq
  intro i hi
  simp only [ofBytes, hiByte, loByte, BitVec.getLsbD_append, BitVec.getLsbD_extractLsb']
  interval_cases i <;> simp

@[simp] theorem regOf_regField (r : Reg) : regOf (regField r) = r := by revert r; decide

@[simp] theorem regField_regOf (v : Nibble) : regField (regOf v) = v := by revert v; decide

/-- `sext_4` by its formula (spec/00_scope.md R7). -/
theorem sext4_eq (v : Nibble) : sext4 v = if v.toNat < 8 then (v.toNat : Int) else (v.toNat : Int) - 16 := by
  revert v; decide

/-- `sext_8` by its formula (spec/00_scope.md R7). -/
theorem sext8_eq (v : Byte) : sext8 v = if v.toNat < 128 then (v.toNat : Int) else (v.toNat : Int) - 256 := by
  have h := BitVec.toInt_eq_toNat_cond v
  unfold sext8
  split_ifs <;> omega

theorem sext4_range (v : Nibble) : -8 ≤ sext4 v ∧ sext4 v ≤ 7 := by revert v; decide

theorem sext8_range (v : Byte) : -128 ≤ sext8 v ∧ sext8 v ≤ 127 := by
  have := v.isLt
  rw [sext8_eq]
  split_ifs <;> omega

@[simp] theorem immField_sext4 (v : Nibble) : immField (sext4 v) = v := by simp [immField, sext4]

theorem sext4_immField {imm : Int} (h : immOk imm = true) : sext4 (immField imm) = imm := by
  simp only [immOk, decide_eq_true_eq] at h
  have : imm = -8 ∨ imm = -7 ∨ imm = -6 ∨ imm = -5 ∨ imm = -4 ∨ imm = -3 ∨ imm = -2 ∨ imm = -1 ∨ imm = 0 ∨
      imm = 1 ∨ imm = 2 ∨ imm = 3 ∨ imm = 4 ∨ imm = 5 ∨ imm = 6 ∨ imm = 7 := by omega
  rcases this with h | h | h | h | h | h | h | h | h | h | h | h | h | h | h | h <;> subst h <;> decide

@[simp] theorem offHi_sext8_offField (a b : Nibble) : offHi (sext8 (offField a b)) = a := by
  simp only [offHi, sext8, BitVec.ofInt_toInt]
  ext i h
  simp only [offField, BitVec.getElem_extractLsb', BitVec.getLsbD_append]
  interval_cases i <;> simp [BitVec.getLsbD_eq_getElem]

@[simp] theorem offLo_sext8_offField (a b : Nibble) : offLo (sext8 (offField a b)) = b := by
  simp only [offLo, sext8, BitVec.ofInt_toInt]
  ext i h
  simp only [offField, BitVec.getElem_extractLsb', BitVec.getLsbD_append]
  interval_cases i <;> simp [BitVec.getLsbD_eq_getElem]

@[simp] theorem offField_hi_lo (off : Int) : offField (offHi off) (offLo off) = BitVec.ofInt 8 off := by
  apply BitVec.eq_of_getLsbD_eq
  intro i hi
  simp only [offField, offHi, offLo, BitVec.getLsbD_append, BitVec.getLsbD_extractLsb']
  interval_cases i <;> simp

theorem sext8_ofInt {off : Int} (h : offOk off = true) : sext8 (BitVec.ofInt 8 off) = off := by
  simp only [offOk, decide_eq_true_eq] at h
  simp only [sext8, BitVec.toInt_ofInt]
  exact Int.bmod_eq_of_le (by omega) (by omega)

theorem immOk_sext4 (v : Nibble) : immOk (sext4 v) = true := by simp [immOk, sext4_range v]

theorem offOk_sext8 (v : Byte) : offOk (sext8 v) = true := by simp [offOk, sext8_range v]

/-- The decoder reads a word through its four fields alone. -/
theorem decodeWith_toWord (m : OpcodeMap) (f : Fields) : decodeWith m f.toWord = decodeFields m f := by
  simp [decodeWith]

theorem OpcodeMap.opcode_injective (m : OpcodeMap) {a b : Operation} (h : m.opcode a = m.opcode b) : a = b := by
  rw [← m.operation_opcode a, h, m.operation_opcode]

end Sys2Proof
end

