-- ==== Sys2Proof/Laws/Memory.lean ====
section
/-! SUPPORT. The laws of an array held as a canonical list: a read after a write, and that every operation keeps the
canonical form. The two read laws need no premise on the list. -/

namespace Sys2Proof.Machine

variable {α : Type} (dflt : Nat → α)

@[simp] theorem Memory.read_nil (k : Nat) : Memory.read dflt [] k = dflt k := rfl

@[simp] theorem Memory.read_cons (c : Nat × α) (m : List (Nat × α)) (k : Nat) :
    Memory.read dflt (c :: m) k = if c.1 = k then c.2 else Memory.read dflt m k := rfl

theorem Memory.read_of_absent {m : List (Nat × α)} {k : Nat} (h : ∀ c ∈ m, c.1 ≠ k) :
    Memory.read dflt m k = dflt k := by
  induction m with
  | nil => rfl
  | cons c m ih =>
    rw [Memory.read_cons, if_neg (h c (by simp))]
    exact ih fun d hd => h d (by simp [hd])

theorem Memory.mem_erase {m : List (Nat × α)} {k : Nat} {c : Nat × α} :
    c ∈ Memory.erase m k ↔ c ∈ m ∧ c.1 ≠ k := by
  simp [Memory.erase]

theorem Memory.read_erase_same (m : List (Nat × α)) (k : Nat) :
    Memory.read dflt (Memory.erase m k) k = dflt k :=
  Memory.read_of_absent dflt fun _ hc => (Memory.mem_erase.mp hc).2

theorem Memory.read_erase_other (m : List (Nat × α)) {k j : Nat} (h : j ≠ k) :
    Memory.read dflt (Memory.erase m k) j = Memory.read dflt m j := by
  induction m with
  | nil => rfl
  | cons c m ih =>
    unfold Memory.erase at ih ⊢
    by_cases hc : c.1 = k
    · have hj : c.1 ≠ j := fun e => h (e ▸ hc)
      simp [hc, ih, Ne.symm h]
    · simp [hc, ih]

theorem Memory.mem_insert {m : List (Nat × α)} {k : Nat} {v : α} {c : Nat × α} :
    c ∈ Memory.insert k v m ↔ c = (k, v) ∨ c ∈ m := by
  induction m with
  | nil => simp [Memory.insert]
  | cons d m ih =>
    unfold Memory.insert
    split
    · simp
    · simp only [List.mem_cons, ih]; tauto

theorem Memory.read_insert_same {m : List (Nat × α)} {k : Nat} (v : α) (h : ∀ c ∈ m, c.1 ≠ k) :
    Memory.read dflt (Memory.insert k v m) k = v := by
  induction m with
  | nil => simp [Memory.insert]
  | cons c m ih =>
    unfold Memory.insert
    split
    · simp
    · simp [h c (by simp), ih fun d hd => h d (by simp [hd])]

theorem Memory.read_insert_other (m : List (Nat × α)) {k j : Nat} (v : α) (h : j ≠ k) :
    Memory.read dflt (Memory.insert k v m) j = Memory.read dflt m j := by
  induction m with
  | nil => simp [Memory.insert, Ne.symm h]
  | cons c m ih =>
    unfold Memory.insert
    split
    · simp [Ne.symm h]
    · simp [ih]

variable [DecidableEq α]

theorem Memory.read_write_same (m : List (Nat × α)) (k : Nat) (v : α) :
    Memory.read dflt (Memory.write dflt m k v) k = v := by
  unfold Memory.write
  split
  · next h => rw [Memory.read_erase_same, h]
  · exact Memory.read_insert_same dflt v fun _ hc => (Memory.mem_erase.mp hc).2

theorem Memory.read_write_other (m : List (Nat × α)) {k j : Nat} (v : α) (h : j ≠ k) :
    Memory.read dflt (Memory.write dflt m k v) j = Memory.read dflt m j := by
  unfold Memory.write
  split
  · exact Memory.read_erase_other dflt m h
  · rw [Memory.read_insert_other dflt _ v h, Memory.read_erase_other dflt m h]

theorem Memory.read_write (m : List (Nat × α)) (k j : Nat) (v : α) :
    Memory.read dflt (Memory.write dflt m k v) j = if j = k then v else Memory.read dflt m j := by
  by_cases h : j = k
  · rw [if_pos h, h, Memory.read_write_same]
  · rw [if_neg h, Memory.read_write_other dflt m v h]

omit [DecidableEq α] in
theorem Memory.wf_nil (size : Nat) : Memory.wf dflt size [] := by simp [Memory.wf]

omit [DecidableEq α] in
theorem Memory.erase_wf {size : Nat} {m : List (Nat × α)} (h : Memory.wf dflt size m) (k : Nat) :
    Memory.wf dflt size (Memory.erase m k) :=
  ⟨h.1.filter _, fun c hc => h.2 c (Memory.mem_erase.mp hc).1⟩

omit [DecidableEq α] in
theorem Memory.insert_wf {size : Nat} {m : List (Nat × α)} (h : Memory.wf dflt size m) {k : Nat} {v : α}
    (hk : k < size) (hv : v ≠ dflt k) (habs : ∀ c ∈ m, c.1 ≠ k) :
    Memory.wf dflt size (Memory.insert k v m) := by
  refine ⟨?_, fun c hc => ?_⟩
  · obtain ⟨hs, -⟩ := h
    induction m with
    | nil => simp [Memory.insert]
    | cons c m ih =>
      rw [List.pairwise_cons] at hs
      have hck : c.1 ≠ k := habs c (by simp)
      unfold Memory.insert
      split
      · next hlt =>
        refine List.pairwise_cons.mpr ⟨fun d hd => ?_, List.pairwise_cons.mpr hs⟩
        rcases List.mem_cons.mp hd with rfl | hd
        · exact hlt
        · exact lt_trans hlt (hs.1 d hd)
      · next hge =>
        refine List.pairwise_cons.mpr ⟨fun d hd => ?_, ih (fun d hd => habs d (by simp [hd])) hs.2⟩
        rcases Memory.mem_insert.mp hd with rfl | hd
        · show c.1 < k
          omega
        · exact hs.1 d hd
  · rcases Memory.mem_insert.mp hc with rfl | hc
    · exact ⟨hk, hv⟩
    · exact h.2 c hc

/-- Every write inside the array keeps the canonical form. -/
theorem Memory.write_wf {size : Nat} {m : List (Nat × α)} (h : Memory.wf dflt size m) {k : Nat} (v : α)
    (hk : k < size) : Memory.wf dflt size (Memory.write dflt m k v) := by
  unfold Memory.write
  split
  · exact Memory.erase_wf dflt h k
  · next hv =>
    exact Memory.insert_wf dflt (Memory.erase_wf dflt h k) hk hv fun _ hc => (Memory.mem_erase.mp hc).2

end Sys2Proof.Machine
end

