-- ==== Sys2Proof/Laws/State.lean ====
section
/-! SUPPORT. What each update of the state does to each field: true by rfl, so that no later proof unfolds a record
update. -/

namespace Sys2Proof.Machine

variable (s : State)

@[simp] theorem State.writeReg_x (r : Reg) (v : Word) : (s.writeReg r v).x = s.x.set r v := rfl
@[simp] theorem State.writeReg_pc (r : Reg) (v : Word) : (s.writeReg r v).pc = s.pc := rfl
@[simp] theorem State.writeReg_imem (r : Reg) (v : Word) : (s.writeReg r v).imem = s.imem := rfl
@[simp] theorem State.writeReg_dmem (r : Reg) (v : Word) : (s.writeReg r v).dmem = s.dmem := rfl
@[simp] theorem State.writeReg_run (r : Reg) (v : Word) : (s.writeReg r v).run = s.run := rfl
@[simp] theorem State.writeReg_fault (r : Reg) (v : Word) : (s.writeReg r v).fault = s.fault := rfl

@[simp] theorem State.setPc_x (t : CodeAddr) : (s.setPc t).x = s.x := rfl
@[simp] theorem State.setPc_pc (t : CodeAddr) : (s.setPc t).pc = t := rfl
@[simp] theorem State.setPc_imem (t : CodeAddr) : (s.setPc t).imem = s.imem := rfl
@[simp] theorem State.setPc_dmem (t : CodeAddr) : (s.setPc t).dmem = s.dmem := rfl
@[simp] theorem State.setPc_run (t : CodeAddr) : (s.setPc t).run = s.run := rfl
@[simp] theorem State.setPc_fault (t : CodeAddr) : (s.setPc t).fault = s.fault := rfl

@[simp] theorem State.setRun_x (r : RunState) : (s.setRun r).x = s.x := rfl
@[simp] theorem State.setRun_pc (r : RunState) : (s.setRun r).pc = s.pc := rfl
@[simp] theorem State.setRun_imem (r : RunState) : (s.setRun r).imem = s.imem := rfl
@[simp] theorem State.setRun_dmem (r : RunState) : (s.setRun r).dmem = s.dmem := rfl
@[simp] theorem State.setRun_run (r : RunState) : (s.setRun r).run = r := rfl
@[simp] theorem State.setRun_fault (r : RunState) : (s.setRun r).fault = s.fault := rfl

@[simp] theorem State.putInstr_x (k : Nat) (w : Word) : (s.putInstr k w).x = s.x := rfl
@[simp] theorem State.putInstr_pc (k : Nat) (w : Word) : (s.putInstr k w).pc = s.pc := rfl
@[simp] theorem State.putInstr_imem (k : Nat) (w : Word) : (s.putInstr k w).imem = Memory.write imemReset s.imem k w := rfl
@[simp] theorem State.putInstr_dmem (k : Nat) (w : Word) : (s.putInstr k w).dmem = s.dmem := rfl
@[simp] theorem State.putInstr_run (k : Nat) (w : Word) : (s.putInstr k w).run = s.run := rfl
@[simp] theorem State.putInstr_fault (k : Nat) (w : Word) : (s.putInstr k w).fault = s.fault := rfl

@[simp] theorem State.putDataByte_x (j : Nat) (b : Byte) : (s.putDataByte j b).x = s.x := rfl
@[simp] theorem State.putDataByte_pc (j : Nat) (b : Byte) : (s.putDataByte j b).pc = s.pc := rfl
@[simp] theorem State.putDataByte_imem (j : Nat) (b : Byte) : (s.putDataByte j b).imem = s.imem := rfl
@[simp] theorem State.putDataByte_dmem (j : Nat) (b : Byte) : (s.putDataByte j b).dmem = Memory.write dmemReset s.dmem j b := rfl
@[simp] theorem State.putDataByte_run (j : Nat) (b : Byte) : (s.putDataByte j b).run = s.run := rfl
@[simp] theorem State.putDataByte_fault (j : Nat) (b : Byte) : (s.putDataByte j b).fault = s.fault := rfl

@[simp] theorem State.putDataWord_x (j : Nat) (v : Word) : (s.putDataWord j v).x = s.x := rfl
@[simp] theorem State.putDataWord_pc (j : Nat) (v : Word) : (s.putDataWord j v).pc = s.pc := rfl
@[simp] theorem State.putDataWord_imem (j : Nat) (v : Word) : (s.putDataWord j v).imem = s.imem := rfl
@[simp] theorem State.putDataWord_dmem (j : Nat) (v : Word) : (s.putDataWord j v).dmem = Memory.write dmemReset (Memory.write dmemReset s.dmem j (hiByte v)) (j + 1) (loByte v) := rfl
@[simp] theorem State.putDataWord_run (j : Nat) (v : Word) : (s.putDataWord j v).run = s.run := rfl
@[simp] theorem State.putDataWord_fault (j : Nat) (v : Word) : (s.putDataWord j v).fault = s.fault := rfl

@[simp] theorem State.raise_x (r : FaultRecord) : (s.raise r).x = s.x := rfl
@[simp] theorem State.raise_pc (r : FaultRecord) : (s.raise r).pc = s.pc := rfl
@[simp] theorem State.raise_imem (r : FaultRecord) : (s.raise r).imem = s.imem := rfl
@[simp] theorem State.raise_dmem (r : FaultRecord) : (s.raise r).dmem = s.dmem := rfl
@[simp] theorem State.raise_run (r : FaultRecord) : (s.raise r).run = .faulted := rfl
@[simp] theorem State.raise_fault (r : FaultRecord) : (s.raise r).fault = some r := rfl

@[simp] theorem State.raiseAddressRange_x (ea : Int) : (s.raiseAddressRange ea).x = s.x := rfl
@[simp] theorem State.raiseAddressRange_pc (ea : Int) : (s.raiseAddressRange ea).pc = s.pc := rfl
@[simp] theorem State.raiseAddressRange_imem (ea : Int) : (s.raiseAddressRange ea).imem = s.imem := rfl
@[simp] theorem State.raiseAddressRange_dmem (ea : Int) : (s.raiseAddressRange ea).dmem = s.dmem := rfl
@[simp] theorem State.raiseAddressRange_run (ea : Int) : (s.raiseAddressRange ea).run = .faulted := rfl
@[simp] theorem State.raiseAddressRange_fault (ea : Int) : (s.raiseAddressRange ea).fault = some (.addressRange s.currentAddr ea) := rfl

@[simp] theorem State.advancePc_x : s.advancePc.x = s.x := rfl
@[simp] theorem State.advancePc_pc : s.advancePc.pc = mod512 ((s.pc.toNat : Int) + 2) := rfl
@[simp] theorem State.advancePc_imem : s.advancePc.imem = s.imem := rfl
@[simp] theorem State.advancePc_dmem : s.advancePc.dmem = s.dmem := rfl
@[simp] theorem State.advancePc_run : s.advancePc.run = s.run := rfl
@[simp] theorem State.advancePc_fault : s.advancePc.fault = s.fault := rfl

@[simp] theorem State.reset_pc : State.reset.pc = 0 := rfl
@[simp] theorem State.reset_imem : State.reset.imem = [] := rfl
@[simp] theorem State.reset_dmem : State.reset.dmem = [] := rfl
@[simp] theorem State.reset_run : State.reset.run = .load := rfl
@[simp] theorem State.reset_fault : State.reset.fault = none := rfl

end Sys2Proof.Machine
end

