-- ==== Sys2Proof/Laws/Ops.lean ====
section
/-! SUPPORT. What each shared operation does, said once: registers, data bytes, the two memory primitives, and the
reduction of integers. -/

namespace Sys2Proof.Machine

variable (s : State)

/-! ## Registers -/

@[simp] theorem State.readReg_writeReg_same (r : Reg) (v : Word) : (s.writeReg r v).readReg r = v := by
  simp [State.readReg, State.writeReg]

theorem State.readReg_writeReg_other {r q : Reg} (v : Word) (h : q ≠ r) :
    (s.writeReg r v).readReg q = s.readReg q := by
  have h' : (r : Nat) ≠ (q : Nat) := fun e => h (Fin.ext e.symm)
  simp [State.readReg, State.writeReg, h']

@[simp] theorem State.readReg_setPc (t : CodeAddr) (r : Reg) : (s.setPc t).readReg r = s.readReg r := rfl
@[simp] theorem State.readReg_advancePc (r : Reg) : s.advancePc.readReg r = s.readReg r := rfl
@[simp] theorem State.readReg_setRun (q : RunState) (r : Reg) : (s.setRun q).readReg r = s.readReg r := rfl
@[simp] theorem State.readReg_putInstr (k : Nat) (w : Word) (r : Reg) :
    (s.putInstr k w).readReg r = s.readReg r := rfl
@[simp] theorem State.readReg_putDataByte (j : Nat) (b : Byte) (r : Reg) :
    (s.putDataByte j b).readReg r = s.readReg r := rfl
@[simp] theorem State.readReg_putDataWord (j : Nat) (v : Word) (r : Reg) :
    (s.putDataWord j v).readReg r = s.readReg r := rfl
@[simp] theorem State.readReg_raise (f : FaultRecord) (r : Reg) : (s.raise f).readReg r = s.readReg r := rfl

@[simp] theorem State.readReg_raiseAddressRange (ea : Int) (r : Reg) :
    (s.raiseAddressRange ea).readReg r = s.readReg r := rfl

/-! ## Instruction memory -/

@[simp] theorem State.instrAt_writeReg (r : Reg) (v : Word) (k : Nat) :
    (s.writeReg r v).instrAt k = s.instrAt k := rfl
@[simp] theorem State.instrAt_setPc (t : CodeAddr) (k : Nat) : (s.setPc t).instrAt k = s.instrAt k := rfl
@[simp] theorem State.instrAt_advancePc (k : Nat) : s.advancePc.instrAt k = s.instrAt k := rfl
@[simp] theorem State.instrAt_setRun (q : RunState) (k : Nat) : (s.setRun q).instrAt k = s.instrAt k := rfl
@[simp] theorem State.instrAt_putDataByte (j : Nat) (b : Byte) (k : Nat) :
    (s.putDataByte j b).instrAt k = s.instrAt k := rfl
@[simp] theorem State.instrAt_putDataWord (j : Nat) (v : Word) (k : Nat) :
    (s.putDataWord j v).instrAt k = s.instrAt k := rfl
@[simp] theorem State.instrAt_raise (f : FaultRecord) (k : Nat) : (s.raise f).instrAt k = s.instrAt k := rfl

@[simp] theorem State.instrAt_raiseAddressRange (ea : Int) (k : Nat) :
    (s.raiseAddressRange ea).instrAt k = s.instrAt k := rfl

theorem State.instrAt_putInstr (k j : Nat) (w : Word) :
    (s.putInstr k w).instrAt j = if j = k then w else s.instrAt j :=
  Memory.read_write imemReset s.imem k j w

/-! ## Data memory -/

@[simp] theorem State.dataByte_writeReg (r : Reg) (v : Word) (j : Nat) :
    (s.writeReg r v).dataByte j = s.dataByte j := rfl
@[simp] theorem State.dataByte_setPc (t : CodeAddr) (j : Nat) : (s.setPc t).dataByte j = s.dataByte j := rfl
@[simp] theorem State.dataByte_advancePc (j : Nat) : s.advancePc.dataByte j = s.dataByte j := rfl
@[simp] theorem State.dataByte_setRun (q : RunState) (j : Nat) : (s.setRun q).dataByte j = s.dataByte j := rfl
@[simp] theorem State.dataByte_putInstr (k : Nat) (w : Word) (j : Nat) :
    (s.putInstr k w).dataByte j = s.dataByte j := rfl
@[simp] theorem State.dataByte_raise (f : FaultRecord) (j : Nat) : (s.raise f).dataByte j = s.dataByte j := rfl

@[simp] theorem State.dataByte_raiseAddressRange (ea : Int) (j : Nat) :
    (s.raiseAddressRange ea).dataByte j = s.dataByte j := rfl

theorem State.dataByte_putDataByte (k j : Nat) (b : Byte) :
    (s.putDataByte k b).dataByte j = if j = k then b else s.dataByte j :=
  Memory.read_write dmemReset s.dmem k j b

theorem State.dataByte_putDataWord (k j : Nat) (v : Word) :
    (s.putDataWord k v).dataByte j =
      if j = k + 1 then loByte v else if j = k then hiByte v else s.dataByte j := by
  unfold State.putDataWord
  rw [State.dataByte_putDataByte, State.dataByte_putDataByte]

/-- A 16-bit value read where it was written is the value (spec/42_load_store.md R93). -/
@[simp] theorem State.dataWord_putDataWord_same (j : Nat) (v : Word) : (s.putDataWord j v).dataWord j = v := by
  have h : j ≠ j + 1 := by omega
  simp [State.dataWord, State.dataByte_putDataWord]

theorem State.putDataWord_wf {j : Nat} (v : Word) (hj : j + 1 < Config.dmemBytes)
    (h : Memory.wf dmemReset Config.dmemBytes s.dmem) :
    Memory.wf dmemReset Config.dmemBytes (s.putDataWord j v).dmem :=
  Memory.write_wf _ (Memory.write_wf _ h _ (by omega)) _ hj

theorem hiByte_toNat (v : Word) : (hiByte v).toNat = v.toNat / 256 := by
  have := v.isLt
  simp only [hiByte, BitVec.extractLsb'_toNat, Nat.shiftRight_eq_div_pow]
  norm_num
  omega

theorem loByte_toNat (v : Word) : (loByte v).toNat = v.toNat % 256 := by
  simp only [loByte, BitVec.extractLsb'_toNat, Nat.shiftRight_eq_div_pow]
  norm_num

theorem ofBytes_toNat (hi lo : Byte) : (ofBytes hi lo).toNat = 256 * hi.toNat + lo.toNat := by
  have := lo.isLt
  simp only [ofBytes, BitVec.toNat_append]
  rw [← Nat.shiftLeft_add_eq_or_of_lt this, Nat.shiftLeft_eq]
  omega

/-! ## The memory primitives -/

theorem State.memRead_of_inRange {ea : Int} (h : inDataRange ea) :
    s.memRead ea = some (s.dataWord (dataLoc ea)) := if_pos h

theorem State.memRead_of_outOfRange {ea : Int} (h : ¬ inDataRange ea) : s.memRead ea = none := if_neg h

theorem State.memWrite_of_inRange {ea : Int} (v : Word) (h : inDataRange ea) :
    s.memWrite ea v = some (s.putDataWord (dataLoc ea) v) := if_pos h

theorem State.memWrite_of_outOfRange {ea : Int} (v : Word) (h : ¬ inDataRange ea) : s.memWrite ea v = none :=
  if_neg h

theorem dataLoc_add_one_lt {ea : Int} (h : inDataRange ea) : dataLoc ea + 1 < Config.dmemBytes := by
  obtain ⟨h1, h2⟩ := h
  simp only [dataLoc, Config.dataBase, Config.dmemBytes]
  omega

/-! ## Reduction of integers -/

/-- `trunc16(z)` reads unsigned as z mod 65536 (spec/00_scope.md R7). -/
theorem trunc16_toNat (z : Int) : ((trunc16 z).toNat : Int) = z % 65536 := by
  have : (0 : Int) ≤ z % 65536 := Int.emod_nonneg z (by decide)
  simp only [trunc16, BitVec.toNat_ofInt]
  norm_num
  omega

/-- `mod512(z)` reads as z mod 512 (spec/00_scope.md R7). -/
theorem mod512_toNat (z : Int) : ((mod512 z).toNat : Int) = z % 512 := by
  have : (0 : Int) ≤ z % 512 := Int.emod_nonneg z (by decide)
  simp only [mod512, BitVec.toNat_ofInt]
  norm_num
  omega

/-- The fetch's advance is the 9-bit addition of 2 (spec/10_state.md R16). -/
theorem State.advancePc_eq : s.advancePc = { s with pc := s.pc + 2 } := by
  have h : mod512 ((s.pc.toNat : Int) + 2) = s.pc + 2 := by
    apply BitVec.eq_of_toNat_eq
    have := mod512_toNat ((s.pc.toNat : Int) + 2)
    rw [BitVec.toNat_add, show (2 : CodeAddr).toNat = 2 from rfl]
    norm_num
    omega
  simp only [State.advancePc, State.setPc, h]

/-- In the execute phase `currentAddr` is the address the instruction was fetched from (spec/10_state.md R15). -/
theorem State.currentAddr_advancePc : s.advancePc.currentAddr = s.pc := by
  apply BitVec.eq_of_toNat_eq
  have h1 := mod512_toNat ((s.pc.toNat : Int) + 2)
  have h2 := mod512_toNat (((mod512 ((s.pc.toNat : Int) + 2)).toNat : Int) - 2)
  have := s.pc.isLt
  simp only [State.currentAddr, State.advancePc_pc]
  omega

/-- A signed register value lies in -32768 to 32767 (spec/10_state.md R14). -/
theorem State.sval_range (r : Reg) : -32768 ≤ s.sval r ∧ s.sval r ≤ 32767 := by
  have h1 := BitVec.le_toInt (s.readReg r)
  have h2 := BitVec.toInt_lt (x := s.readReg r)
  simp only [State.sval]
  constructor <;> omega

/-- An effective address lies in -65536 to 65534 (spec/42_load_store.md R90). -/
theorem State.effectiveAddress_range (ra rb : Reg) :
    -65536 ≤ s.effectiveAddress ra rb ∧ s.effectiveAddress ra rb ≤ 65534 := by
  have ha := s.sval_range ra
  have hb := s.sval_range rb
  simp only [State.effectiveAddress]
  constructor <;> omega

end Sys2Proof.Machine
end

