-- ==== Sys2Proof/Laws/Exec.lean ====
section
/-! SUPPORT. The meanings of LD, SD and BEQZ by case, and the inversion lemma of `exec`: everything the execute phase
can do. -/

namespace Sys2Proof.Machine

variable (s : State)

theorem execLd_of_inRange (rd ra rb : Reg) (h : inDataRange (s.effectiveAddress ra rb)) :
    execLd rd ra rb s = .next (s.writeReg rd (s.dataWord (dataLoc (s.effectiveAddress ra rb)))) := by
  simp [execLd, s.memRead_of_inRange h]

theorem execLd_of_outOfRange (rd ra rb : Reg) (h : ¬ inDataRange (s.effectiveAddress ra rb)) :
    execLd rd ra rb s = .next (s.raiseAddressRange (s.effectiveAddress ra rb)) := by
  simp [execLd, s.memRead_of_outOfRange h]

theorem execSd_of_inRange (ra rb rv : Reg) (h : inDataRange (s.effectiveAddress ra rb)) :
    execSd ra rb rv s = .next (s.putDataWord (dataLoc (s.effectiveAddress ra rb)) (s.readReg rv)) := by
  simp [execSd, s.memWrite_of_inRange _ h]

theorem execSd_of_outOfRange (ra rb rv : Reg) (h : ¬ inDataRange (s.effectiveAddress ra rb)) :
    execSd ra rb rv s = .next (s.raiseAddressRange (s.effectiveAddress ra rb)) := by
  simp [execSd, s.memWrite_of_outOfRange _ h]

theorem State.regIsZero_iff (r : Reg) : s.regIsZero r = true ↔ s.readReg r = 0 := by
  simp [State.regIsZero]

theorem execBeqz_of_zero (rt : Reg) (off : Int) (h : s.readReg rt = 0) :
    execBeqz rt off s = .next (s.setPc (s.branchTarget off)) := by
  simp [execBeqz, (s.regIsZero_iff rt).mpr h]

theorem execBeqz_of_nonzero (rt : Reg) (off : Int) (h : s.readReg rt ≠ 0) : execBeqz rt off s = .next s := by
  simp [execBeqz, mt (s.regIsZero_iff rt).mp h]

/-- What the execute phase of an instruction can do (spec/40_engine_cycle.md R77, and R114 for the fault). -/
inductive ExecCase (i : Instr) (s : State) : State → Prop where
  /-- an arithmetic instruction writes its destination -/
  | computed (rd : Reg) (v : Word) : i.isArithmetic = true → i.dest = some rd → ExecCase i s (s.writeReg rd v)
  /-- an LD in range writes its destination -/
  | loaded (rd ra rb : Reg) : i = .ld rd ra rb → inDataRange (s.effectiveAddress ra rb) →
      ExecCase i s (s.writeReg rd (s.dataWord (dataLoc (s.effectiveAddress ra rb))))
  /-- an LD out of range raises AddressRangeFault -/
  | loadFaulted (rd ra rb : Reg) : i = .ld rd ra rb → ¬ inDataRange (s.effectiveAddress ra rb) →
      ExecCase i s (s.raiseAddressRange (s.effectiveAddress ra rb))
  /-- an SD in range writes its two bytes -/
  | stored (ra rb rv : Reg) : i = .sd ra rb rv → inDataRange (s.effectiveAddress ra rb) →
      ExecCase i s (s.putDataWord (dataLoc (s.effectiveAddress ra rb)) (s.readReg rv))
  /-- an SD out of range raises AddressRangeFault -/
  | storeFaulted (ra rb rv : Reg) : i = .sd ra rb rv → ¬ inDataRange (s.effectiveAddress ra rb) →
      ExecCase i s (s.raiseAddressRange (s.effectiveAddress ra rb))
  /-- JMP writes `pc` -/
  | jumped (off : Int) : i = .jmp off → ExecCase i s (s.setPc (s.branchTarget off))
  /-- a taken BEQZ writes `pc` -/
  | taken (rt : Reg) (off : Int) : i = .beqz rt off → s.readReg rt = 0 →
      ExecCase i s (s.setPc (s.branchTarget off))
  /-- a BEQZ not taken changes nothing -/
  | notTaken (rt : Reg) (off : Int) : i = .beqz rt off → s.readReg rt ≠ 0 → ExecCase i s s
  /-- HLT writes the run-state -/
  | halted : i = .hlt → ExecCase i s (s.setRun .halted)
  /-- an unassigned opcode changes nothing -/
  | skipped : i.isUnassigned = true → ExecCase i s s

/-- The execute phase always answers a next state, and it is one of the cases. -/
theorem exec_cases (i : Instr) : ∃ t, exec i s = .next t ∧ ExecCase i s t := by
  cases i with
  | add rd _ _ => exact ⟨_, rfl, .computed rd _ rfl rfl⟩
  | addi rd _ _ => exact ⟨_, rfl, .computed rd _ rfl rfl⟩
  | sub rd _ _ => exact ⟨_, rfl, .computed rd _ rfl rfl⟩
  | subi rd _ _ => exact ⟨_, rfl, .computed rd _ rfl rfl⟩
  | mul rd _ _ => exact ⟨_, rfl, .computed rd _ rfl rfl⟩
  | muli rd _ _ => exact ⟨_, rfl, .computed rd _ rfl rfl⟩
  | ld rd ra rb =>
    by_cases h : inDataRange (s.effectiveAddress ra rb)
    · exact ⟨_, execLd_of_inRange s rd ra rb h, .loaded rd ra rb rfl h⟩
    · exact ⟨_, execLd_of_outOfRange s rd ra rb h, .loadFaulted rd ra rb rfl h⟩
  | sd ra rb rv =>
    by_cases h : inDataRange (s.effectiveAddress ra rb)
    · exact ⟨_, execSd_of_inRange s ra rb rv h, .stored ra rb rv rfl h⟩
    · exact ⟨_, execSd_of_outOfRange s ra rb rv h, .storeFaulted ra rb rv rfl h⟩
  | jmp off => exact ⟨_, rfl, .jumped off rfl⟩
  | beqz rt off =>
    by_cases h : s.readReg rt = 0
    · exact ⟨_, execBeqz_of_zero s rt off h, .taken rt off rfl h⟩
    · exact ⟨_, execBeqz_of_nonzero s rt off h, .notTaken rt off rfl h⟩
  | hlt => exact ⟨_, rfl, .halted rfl⟩
  | unassigned4 => exact ⟨_, rfl, .skipped rfl⟩
  | unassigned5 => exact ⟨_, rfl, .skipped rfl⟩
  | unassigned9 => exact ⟨_, rfl, .skipped rfl⟩
  | unassigned11 => exact ⟨_, rfl, .skipped rfl⟩
  | unassigned15 => exact ⟨_, rfl, .skipped rfl⟩

/-- The inversion lemma of `exec`. -/
theorem exec_next_cases {i : Instr} {t : State} (h : exec i s = .next t) : ExecCase i s t := by
  obtain ⟨u, hu, hc⟩ := exec_cases s i
  rw [hu] at h
  injection h with h
  exact h ▸ hc

end Sys2Proof.Machine
end

