-- ==== Sys2Proof/Laws/Host.lean ====
section
/-! SUPPORT. The inversion lemma of a host move: everything it can do to the state. -/

namespace Sys2Proof.Machine

variable (s : State)

theorem State.whenLoading_of_load (r : HostResult) (h : s.run = .load) : s.whenLoading r = r := if_pos h

theorem State.whenLoading_of_not_load (r : HostResult) (h : s.run ≠ .load) : s.whenLoading r = ⟨s, .refused⟩ :=
  if_neg h

/-- What a host move can do to the state. -/
inductive HostCase (s : State) : State → Prop where
  | reset : HostCase s State.reset
  | unchanged : HostCase s s
  | loaded (slot : Nat) (w : Word) : s.run = .load → slot < Config.imemSlots → HostCase s (s.putInstr slot w)
  | stored (j : Nat) (v : Word) : s.run = .load → j + 1 < Config.dmemBytes → HostCase s (s.putDataWord j v)
  | wrote (r : Reg) (v : Word) : s.run = .load → HostCase s (s.writeReg r v)
  | started : s.run = .load → HostCase s (s.setRun .running)

/-- The inversion lemma of a host move. -/
theorem hostApply_cases (op : HostOp) : HostCase s (hostApply op s).state := by
  by_cases h : s.run = .load
  · cases op with
    | reset => exact .reset
    | loadInstr addr w =>
      simp only [hostApply, hostLoadInstr, s.whenLoading_of_load _ h]
      split
      · exact .loaded _ _ h (by have := addr.offset.isLt; simp only [Config.imemSlots]; omega)
      · exact .unchanged
    | storeData addr v =>
      simp only [hostApply, hostStoreData, s.whenLoading_of_load _ h]
      split
      · next hc =>
        refine .stored _ _ h ?_
        have hne : addr.offset.toNat ≠ 511 := fun e => hc.2 (BitVec.eq_of_toNat_eq e)
        have := addr.offset.isLt
        simp only [Config.dmemBytes]
        omega
      · exact .unchanged
    | setReg index v =>
      simp only [hostApply, hostSetReg, s.whenLoading_of_load _ h]
      split
      · exact .wrote _ _ h
      · exact .unchanged
    | start =>
      simp only [hostApply, hostStart, s.whenLoading_of_load _ h]
      exact .started h
  · cases op with
    | reset => exact .reset
    | loadInstr addr w => simpa [hostApply, hostLoadInstr, s.whenLoading_of_not_load _ h] using HostCase.unchanged
    | storeData addr v => simpa [hostApply, hostStoreData, s.whenLoading_of_not_load _ h] using HostCase.unchanged
    | setReg index v => simpa [hostApply, hostSetReg, s.whenLoading_of_not_load _ h] using HostCase.unchanged
    | start => simpa [hostApply, hostStart, s.whenLoading_of_not_load _ h] using HostCase.unchanged

end Sys2Proof.Machine
end

