-- ==== Sys2Proof/Laws/PerInstr.lean ====
section
/-! SUPPORT. Facts about every instruction as text, one lemma per constructor.

Family EncodedOpcode: the word of an instruction carries, in bits 15:12, the opcode of its operation under every
OPCODE_MAP (spec/30_encoding.md R51, R57). -/

namespace Sys2Proof.Laws.EncodedOpcode

/-- The opcode field of the encoded instruction is its operation's opcode. -/
def Statement (i : Instr) : Prop := ∀ m : OpcodeMap, (Fields.ofWord (encodeWith m i)).opcode = m.opcode i.operation

theorem add (rd rs1 rs2 : Reg) : Statement (.add rd rs1 rs2) := fun m => by
  rw [encodeWith, Fields.ofWord_toWord]; rfl

theorem addi (rd rs1 : Reg) (imm : Int) : Statement (.addi rd rs1 imm) := fun m => by
  rw [encodeWith, Fields.ofWord_toWord]; rfl

theorem sub (rd rs1 rs2 : Reg) : Statement (.sub rd rs1 rs2) := fun m => by
  rw [encodeWith, Fields.ofWord_toWord]; rfl

theorem subi (rd rs1 : Reg) (imm : Int) : Statement (.subi rd rs1 imm) := fun m => by
  rw [encodeWith, Fields.ofWord_toWord]; rfl

theorem unassigned4 : Statement .unassigned4 := fun m => by
  rw [encodeWith, Fields.ofWord_toWord]; rfl

theorem unassigned5 : Statement .unassigned5 := fun m => by
  rw [encodeWith, Fields.ofWord_toWord]; rfl

theorem mul (rd rs1 rs2 : Reg) : Statement (.mul rd rs1 rs2) := fun m => by
  rw [encodeWith, Fields.ofWord_toWord]; rfl

theorem muli (rd rs1 : Reg) (imm : Int) : Statement (.muli rd rs1 imm) := fun m => by
  rw [encodeWith, Fields.ofWord_toWord]; rfl

theorem ld (rd ra rb : Reg) : Statement (.ld rd ra rb) := fun m => by
  rw [encodeWith, Fields.ofWord_toWord]; rfl

theorem unassigned9 : Statement .unassigned9 := fun m => by
  rw [encodeWith, Fields.ofWord_toWord]; rfl

theorem sd (ra rb rv : Reg) : Statement (.sd ra rb rv) := fun m => by
  rw [encodeWith, Fields.ofWord_toWord]; rfl

theorem unassigned11 : Statement .unassigned11 := fun m => by
  rw [encodeWith, Fields.ofWord_toWord]; rfl

theorem jmp (off : Int) : Statement (.jmp off) := fun m => by
  rw [encodeWith, Fields.ofWord_toWord]; rfl

theorem beqz (rt : Reg) (off : Int) : Statement (.beqz rt off) := fun m => by
  rw [encodeWith, Fields.ofWord_toWord]; rfl

theorem hlt : Statement .hlt := fun m => by
  rw [encodeWith, Fields.ofWord_toWord]; rfl

theorem unassigned15 : Statement .unassigned15 := fun m => by
  rw [encodeWith, Fields.ofWord_toWord]; rfl

end Sys2Proof.Laws.EncodedOpcode
end

