-- ==== Sys2Proof/Laws/Step.lean ====
section
/-! SUPPORT. The fetch by case, and the inversion lemma of a step: everything one step can do. -/

namespace Sys2Proof.Machine

variable (s : State)

theorem State.fetch_of_even (p : OddPcPolicy) (h : ¬ oddPc s.pc) :
    s.fetch p = .word (s.instrAt s.fetchSlot) s.advancePc := if_neg fun c => h c.2

theorem State.fetch_floor : s.fetch .floor = .word (s.instrAt s.fetchSlot) s.advancePc :=
  if_neg fun c => OddPcPolicy.noConfusion c.1

theorem State.fetch_fault_of_odd (h : oddPc s.pc) :
    s.fetch .fault = .raised (s.raise (.misalignedFetch s.pc)) := if_pos ⟨rfl, h⟩

theorem stepUnder_of_word {m : OpcodeMap} {p : OddPcPolicy} {w : Word} {t : State} (hr : s.run = .running)
    (hf : s.fetch p = .word w t) : stepUnder m p s = exec (decodeWith m w) t := by
  simp [stepUnder, hr, hf]

theorem stepUnder_of_raised {m : OpcodeMap} {p : OddPcPolicy} {t : State} (hr : s.run = .running)
    (hf : s.fetch p = .raised t) : stepUnder m p s = .next t := by
  simp [stepUnder, hr, hf]

theorem stepUnder_of_not_running (m : OpcodeMap) (p : OddPcPolicy) (h : s.run ≠ .running) :
    stepUnder m p s = s.noStep := if_neg h

/-- Outside Running there is no next state. -/
theorem State.noStep_ne_next (h : s.run ≠ .running) (t : State) : s.noStep ≠ .next t := by
  unfold State.noStep
  cases hr : s.run <;> simp_all

/-- What one step can do: the fetch raises, or the fetched instruction is executed on the advanced state. -/
inductive StepCase (m : OpcodeMap) (p : OddPcPolicy) (s : State) : State → Prop where
  | fetchFaulted : p = .fault → oddPc s.pc → StepCase m p s (s.raise (.misalignedFetch s.pc))
  | executed {t : State} : ¬ (p = .fault ∧ oddPc s.pc) →
      ExecCase (decodeWith m (s.instrAt s.fetchSlot)) s.advancePc t → StepCase m p s t

/-- The inversion lemma of a step. -/
theorem stepUnder_next_cases {m : OpcodeMap} {p : OddPcPolicy} {t : State} (h : stepUnder m p s = .next t) :
    s.run = .running ∧ StepCase m p s t := by
  by_cases hr : s.run = .running
  · refine ⟨hr, ?_⟩
    by_cases hc : p = .fault ∧ oddPc s.pc
    · have hf : s.fetch p = .raised (s.raise (.misalignedFetch s.pc)) := if_pos hc
      rw [stepUnder_of_raised s hr hf] at h
      injection h with h
      exact h ▸ .fetchFaulted hc.1 hc.2
    · have hf : s.fetch p = .word (s.instrAt s.fetchSlot) s.advancePc := if_neg hc
      rw [stepUnder_of_word s hr hf] at h
      exact .executed hc (exec_next_cases _ h)
  · rw [stepUnder_of_not_running s m p hr] at h
    exact absurd h (s.noStep_ne_next hr t)

end Sys2Proof.Machine
end

