-- ==== Sys2Proof/Laws/Run.lean ====
section
/-! SUPPORT. Runs of several steps taken apart one step at a time, and what every step keeps. -/

namespace Sys2Proof.Machine

theorem run_zero_iff {s t : State} : Host.Core.run Sys2Proof.core 0 s = .next t ↔ t = s := by
  constructor
  · intro h
    cases h
    rfl
  · rintro rfl
    rfl

theorem run_succ_iff_of (M : Host.Core) {k : Nat} {s t : M.State} :
    M.run (k + 1) s = .next t ↔ ∃ u, M.step s = .next u ∧ M.run k u = .next t := by
  rw [Host.Core.run]
  cases M.step s with
  | next u =>
    constructor
    · exact fun h => ⟨u, rfl, h⟩
    · rintro ⟨v, hv, h⟩
      cases hv
      exact h
  | fault r =>
    constructor
    · intro h
      cases h
    · rintro ⟨v, hv, -⟩
      cases hv
  | refused r =>
    constructor
    · intro h
      cases h
    · rintro ⟨v, hv, -⟩
      cases hv

/-- A run of one step more is a step and then the run. -/
theorem run_succ_iff {k : Nat} {s t : State} :
    Host.Core.run Sys2Proof.core (k + 1) s = .next t ↔
      ∃ u, step s = .next u ∧ Host.Core.run Sys2Proof.core k u = .next t :=
  run_succ_iff_of Sys2Proof.core

/-- The execute phase never writes instruction memory (spec/20_memory.md R31). -/
theorem ExecCase.imem_eq {i : Instr} {s t : State} (h : ExecCase i s t) : t.imem = s.imem := by
  cases h <;> rfl

end Sys2Proof.Machine
end

