-- ==== Sys2Proof/Tests/Slice0.lean ====
section
/-! SUPPORT. The model's own tests. Expected values are those of spec/95_test_vectors.md (the vector is named) or
worked by hand from the rule named; and for every obligation with hypotheses a witness that meets them. -/

namespace Sys2Proof.Tests

open Sys2Proof Sys2Proof.Machine

/-! ## Helpers -/

/-- The next state, if there is one. -/
def nextOf : Result → Option State
  | .next t => some t
  | .fault _ => none
  | .refused _ => none

/-- The stuck state, if that is the answer. -/
def stopOf : Result → Option Fault
  | .next _ => none
  | .fault f => some f
  | .refused _ => none

/-- A running state after reset with the given registers. -/
def regs (l : List (Reg × Word)) : State := l.foldl (fun s c => s.writeReg c.1 c.2) (State.reset.setRun .running)

/-- `s` with `pc` at `a` and the word `w` in the slot it selects. -/
def at_ (s : State) (a : CodeAddr) (w : Word) : State := (s.setPc a).putInstr (a.toNat / 2) w

/-- One step of the word `w` in slot 0 from the given registers; the value of register `r` after it. -/
def regAfter (l : List (Reg × Word)) (w : Word) (r : Reg) : Option Word :=
  (nextOf (step (at_ (regs l) 0 w))).map (·.readReg r)

/-- `pc` after one step of the word `w` at the address `a`. -/
def pcAfter (l : List (Reg × Word)) (a : CodeAddr) (w : Word) : Option CodeAddr :=
  (nextOf (step (at_ (regs l) a w))).map (·.pc)

/-! ## WellFormed refuses what has no encoding (R54, R55) -/

theorem test_wf_addi_imm : (Instr.addi 0 0 8).wellFormed = false ∧ (Instr.addi 0 0 (-9)).wellFormed = false := by
  decide
theorem test_wf_subi_imm : (Instr.subi 0 0 8).wellFormed = false ∧ (Instr.subi 0 0 (-9)).wellFormed = false := by
  decide
theorem test_wf_muli_imm : (Instr.muli 0 0 8).wellFormed = false ∧ (Instr.muli 0 0 (-9)).wellFormed = false := by
  decide
theorem test_wf_jmp_off : (Instr.jmp 128).wellFormed = false ∧ (Instr.jmp (-129)).wellFormed = false := by decide
theorem test_wf_beqz_off : (Instr.beqz 0 128).wellFormed = false ∧ (Instr.beqz 0 (-129)).wellFormed = false := by
  decide

/-! ## Decoding: every row's word written out from its encoding line (R81 to R86, R91, R92, R101 to R104) -/

theorem test_decode_add : decode 0b0000_0011_0001_0010#16 = .add 3 1 2 := by decide
theorem test_decode_addi : decode 0b0001_0001_0000_1111#16 = .addi 1 0 (-1) := by decide
theorem test_decode_sub : decode 0b0010_0011_0001_0010#16 = .sub 3 1 2 := by decide
theorem test_decode_subi : decode 0b0011_0001_0001_1000#16 = .subi 1 1 (-8) := by decide
theorem test_decode_unassigned4 : decode 0b0100_1010_1011_1100#16 = .unassigned4 := by decide
theorem test_decode_unassigned5 : decode 0b0101_0000_0000_0000#16 = .unassigned5 := by decide
theorem test_decode_mul : decode 0b0110_1111_1110_1101#16 = .mul 15 14 13 := by decide
theorem test_decode_muli : decode 0b0111_0010_0001_0111#16 = .muli 2 1 7 := by decide
theorem test_decode_ld : decode 0b1000_0000_0001_0010#16 = .ld 0 1 2 := by decide
theorem test_decode_unassigned9 : decode 0b1001_1111_1111_1111#16 = .unassigned9 := by decide
theorem test_decode_sd : decode 0b1010_0001_0010_0011#16 = .sd 1 2 3 := by decide
theorem test_decode_unassigned11 : decode 0b1011_0001_0010_0011#16 = .unassigned11 := by decide
theorem test_decode_jmp : decode 0b1100_0101_0111_1110#16 = .jmp 126 := by decide
theorem test_decode_beqz : decode 0b1101_0011_1000_0000#16 = .beqz 3 (-128) := by decide
theorem test_decode_hlt : decode 0b1110_1111_1111_1111#16 = .hlt := by decide
theorem test_decode_unassigned15 : decode 0b1111_0000_0000_1111#16 = .unassigned15 := by decide

/-- R63's field rules, by the words of programs P1 and B10. -/
theorem test_encode : encode (.jmp (-6)) = 0xC0FA#16 ∧ encode (.beqz 1 8) = 0xD108#16 ∧
    encode (.subi 1 1 (-8)) = 0x3118#16 ∧ encode .hlt = 0xE000#16 ∧ encode (.jmp (-4)) = 0xC0FC#16 := by decide

/-- R36's byte order, and a list too short for one instruction. -/
theorem test_decode_bytes : decodeBytes [0x80#8, 0x12#8, 0xE0#8] = .ok (.ld 0 1 2, [0xE0#8]) ∧
    decodeBytes [0x80#8] = .error (.truncated 1) := ⟨rfl, rfl⟩

theorem test_table_word : decodeTableWord 16 0x8012 = some (.ld 0 1 2) ∧ decodeTableWord 17 0x8012 = none := by
  decide

/-- R65: each argument is cut to 4 bits. -/
theorem test_instruction_word : instructionWord 16 17 (-1) 3 = 0x01F3#16 := by decide

/-! ## Arithmetic (section 2.2) -/

theorem test_add_wraps_A1 : regAfter [(1, 0x7FFF#16), (2, 0x0001#16)] 0x0312#16 3 = some 0x8000#16 := by decide
theorem test_add_same_register_A4 : regAfter [(1, 0x4000#16)] 0x0111#16 1 = some 0x8000#16 := by decide
theorem test_addi_negative_A7 : regAfter [] 0x110F#16 1 = some 0xFFFF#16 := by decide
theorem test_addi_wraps_A8 : regAfter [(1, 0x7FFF#16)] 0x1117#16 1 = some 0x8006#16 := by decide
theorem test_sub_borrow_A11 : regAfter [(2, 0x0001#16)] 0x2312#16 3 = some 0xFFFF#16 := by decide
theorem test_sub_order_A13 : regAfter [(1, 0x0005#16), (2, 0xFFFD#16)] 0x2312#16 3 = some 0x0008#16 := by decide
theorem test_subi_negative_A17 : regAfter [(1, 0x0005#16)] 0x3118#16 1 = some 0x000D#16 := by decide
theorem test_subi_wraps_A15 : regAfter [] 0x3111#16 1 = some 0xFFFF#16 := by decide
theorem test_mul_signs_A22 : regAfter [(0, 0x8000#16), (1, 0xFFFF#16)] 0x6201#16 2 = some 0x8000#16 := by decide
theorem test_mul_low_half_A25 : regAfter [(0, 0x012C#16), (1, 0x012C#16)] 0x6201#16 2 = some 0x5F90#16 := by decide
theorem test_muli_signed_A28 : regAfter [(1, 0x0003#16)] 0x7118#16 1 = some 0xFFE8#16 := by decide
theorem test_muli_wraps_A32 : regAfter [(1, 0x2492#16)] 0x7117#16 1 = some 0xFFFE#16 := by decide

/-! ## Load and store (section 2.3) -/

theorem test_ld_odd_M8 :
    (nextOf (step ((at_ (regs [(1, 601#16)]) 0 0x8012#16).putDataWord 89 0x3456#16))).map (·.readReg 0) =
      some 0x3456#16 := by decide
theorem test_ld_range_fault_M12 : (nextOf (step (at_ (regs []) 0 0x8000#16))).map (fun t => (t.run, t.fault, t.pc)) =
    some (.faulted, some (.addressRange 0 0), 2) := by decide
theorem test_sd_last_M2 :
    (nextOf (step (at_ (regs [(1, 1022#16), (3, 0xABCD#16)]) 0 0xA123#16))).map (·.dmem) =
      some [(510, 0xAB#8), (511, 0xCD#8)] := by decide
theorem test_sd_exact_sum_M14 :
    (nextOf (step (at_ (regs [(1, 0x8000#16), (2, 0x8200#16)]) 0 0xA123#16))).map (fun t => (t.fault, t.dmem)) =
      some (some (.addressRange 0 (-65024)), []) := by decide

/-! ## Control flow (section 2.4) -/

theorem test_jmp_wraps_B10 : pcAfter [] 0 0xC0FC#16 = some 508 := by decide
theorem test_jmp_odd_B13 : pcAfter [] 200 0xC07F#16 = some 327 := by decide
theorem test_beqz_taken_B5 : pcAfter [] 4 0xD106#16 = some 10 := by decide
theorem test_beqz_sign_bit_B7 : pcAfter [(1, 0x8000#16)] 4 0xD106#16 = some 6 := by decide
theorem test_hlt_B16 : (nextOf (step (at_ (regs []) 6 0xE000#16))).map (fun t => (t.run, t.pc)) =
    some (.halted, 8) := by decide
theorem test_unassigned4_B17 : (nextOf (step (at_ (regs []) 0 0x4ABC#16))) =
    some ((at_ (regs []) 0 0x4ABC#16).setPc 2) := by decide
theorem test_unassigned5_B18 : pcAfter [] 0 0x5000#16 = some 2 := by decide
theorem test_unassigned9_B18 : pcAfter [] 0 0x9FFF#16 = some 2 := by decide
theorem test_unassigned11_B18 : pcAfter [] 0 0xB123#16 = some 2 := by decide
theorem test_unassigned15_B18 : pcAfter [] 0 0xF00F#16 = some 2 := by decide
theorem test_fetch_wraps_B15 : pcAfter [] 510 0x0000#16 = some 0 := by decide

/-! ## Engine and host (section 2.5, P7b) -/

theorem test_odd_fetch_B19 : (nextOf (step ((regs []).setPc 3))).map (fun t => (t.run, t.fault, t.pc)) =
    some (.faulted, some (.misalignedFetch 3), 3) := by decide
theorem test_floor_P7b :
    (nextOf (stepUnder opcodeMap .floor (((regs []).putInstr 1 0xE000#16).setPc 3))).map (fun t => (t.run, t.pc)) =
      some (.halted, 5) := by decide
theorem test_no_step_at_reset : stopOf (step State.reset) = some .notStarted := by decide
theorem test_fetch_word_runs_after_reset :
    (nextOf (step (State.reset.withFetchWord 16 0x1003))).map (fun t => (t.readReg 0, t.pc)) =
      some (0x0003#16, 2) := by decide
theorem test_set_reg_H2 : hostApply (.setReg 16 5#16) State.reset = ⟨State.reset, .ok⟩ ∧
    hostApply (.setReg (-1) 5#16) State.reset = ⟨State.reset, .ok⟩ := by decide
theorem test_load_instr_H4_H5_H6 :
    (hostApply (.loadInstr ⟨0, 510⟩ 0xE000#16) State.reset).state.imem = [(255, 0xE000#16)] ∧
    hostApply (.loadInstr ⟨0, 511⟩ 0xE000#16) State.reset = ⟨State.reset, .error⟩ ∧
    hostApply (.loadInstr ⟨1, 0⟩ 0xE000#16) State.reset = ⟨State.reset, .error⟩ := by decide
theorem test_store_data_H7_H8 :
    (hostApply (.storeData ⟨1, 510⟩ 0x0102#16) State.reset).state.dmem = [(510, 0x01#8), (511, 0x02#8)] ∧
    hostApply (.storeData ⟨1, 511⟩ 0x0102#16) State.reset = ⟨State.reset, .error⟩ := by decide
theorem test_host_refused_H13 : hostApply (.setReg 0 5#16) (regs []) = ⟨regs [], .refused⟩ := by decide

/-- The source's second scenario (S8, P4): loaded by the host, started, run, and read back. -/
def s8 : State :=
  hostRun [.setReg 1 600#16, .storeData (AddressRef.make 1 88) 0x1234#16, .loadInstr (AddressRef.make 0 0) 0x8012#16,
    .loadInstr (AddressRef.make 0 2) 0xE000#16, .start] State.reset

theorem test_s8_first_step : (nextOf (step s8)).map (fun t => (t.readReg 0, t.pc)) = some (0x1234#16, 2) := by decide
theorem test_s8_byte_view : s8.byteView 600 = 0b0001_0010#8 ∧ s8.byteView 601 = 0b0011_0100#8 ∧
    s8.byteView 0 = 0b1000_0000#8 ∧ s8.byteView 2 = 0b1110_0000#8 := by decide

/-- P5: the run wraps through address 510 and halts in two steps; one step of budget is not enough. -/
theorem test_budget_P5 :
    (match runFor 2 ((regs []).putInstr 0 0xC0FE#16 |>.putInstr 255 0xE000#16) with
      | .halted t => some t.pc | _ => none) = some 0 ∧
    (match runFor 1 ((regs []).putInstr 0 0xC0FE#16 |>.putInstr 255 0xE000#16) with
      | .outOfBudget t => some t.pc | _ => none) = some 510 := by decide

/-- Writing what an unlisted cell reads as removes the entry, so the memory is the reset memory again. -/
theorem test_memory_canonical : ((State.reset.putDataWord 5 0xAB00#16).putDataByte 5 0#8).dmem = [] := by decide

/-! ## Witnesses: for each obligation with hypotheses, values that meet them -/

theorem witness_DecodeEncodeRoundTrip :
    (Instr.addi 15 0 (-8)).wellFormed = true ∧ (Instr.muli 0 15 7).wellFormed = true ∧
    (Instr.jmp (-128)).wellFormed = true ∧ (Instr.beqz 15 127).wellFormed = true := by decide

theorem witness_IgnoredFieldsHaveNoEffect : ∃ o : Operation, o = .hlt ∨ o = .unassigned4 ∨ o = .unassigned5 ∨
    o = .unassigned9 ∨ o = .unassigned11 ∨ o = .unassigned15 := ⟨.unassigned15, by decide⟩

/-- Both sides of the sign bit: op3 = 7 and op3 = 8. -/
theorem witness_ImmediateIsSignedField :
    (7 : Int) = (if (7#4).toNat < 8 then ((7#4).toNat : Int) else ((7#4).toNat : Int) - 16) ∧
    (-8 : Int) = (if (8#4).toNat < 8 then ((8#4).toNat : Int) else ((8#4).toNat : Int) - 16) := by decide

/-- Both sides of the sign bit: 127 and 128. -/
theorem witness_BranchOffsetIsSignedField :
    127 = 16 * (7#4).toNat + (15#4).toNat ∧ (127 : Int) = (if 127 < 128 then ((127 : Nat) : Int) else (127 : Nat) - 256) ∧
    128 = 16 * (8#4).toNat + (0#4).toNat ∧ (-128 : Int) = (if 128 < 128 then ((128 : Nat) : Int) else (128 : Nat) - 256) := by
  decide

theorem witness_ArithmeticStepNeverFaults : ∃ s : State, s.run = .running ∧ ¬ (oddPcPolicy = .fault ∧ s.pc.toNat % 2 = 1) ∧
    decodeWith opcodeMap (s.instrAt (s.pc.toNat / 2)) = .mul 15 14 13 ∧ (Instr.mul 15 14 13).isArithmetic = true :=
  ⟨at_ (regs []) 510 0x6FED#16, by decide⟩

/-- The first and the last effective address in range. -/
theorem witness_LoadReadsBigEndianPair :
    (∃ s : State, (512 : Int) = (s.readReg 1).toInt + (s.readReg 2).toInt) ∧
    ∃ s : State, (1022 : Int) = (s.readReg 1).toInt + (s.readReg 2).toInt :=
  ⟨⟨regs [(1, 512#16)], by decide⟩, ⟨regs [(1, 0xFFFF#16), (2, 1023#16)], by decide⟩⟩

theorem witness_StoreWritesBigEndianPair :
    (∃ s : State, (512 : Int) = (s.readReg 1).toInt + (s.readReg 2).toInt) ∧
    ∃ s : State, (1022 : Int) = (s.readReg 1).toInt + (s.readReg 2).toInt :=
  ⟨⟨regs [(1, 513#16), (2, 0xFFFF#16)], by decide⟩, ⟨regs [(2, 1022#16)], by decide⟩⟩

/-- The nearest effective addresses out of range, by an LD and by an SD. -/
theorem witness_OutOfRangeAccessTakesFault :
    (∃ s : State, (511 : Int) = (s.readReg 1).toInt + (s.readReg 2).toInt ∧ ((511 : Int) < 512 ∨ 1022 < (511 : Int)) ∧
      ∃ rd, Instr.ld 0 1 2 = .ld rd 1 2) ∧
    ∃ s : State, (1023 : Int) = (s.readReg 1).toInt + (s.readReg 2).toInt ∧ ((1023 : Int) < 512 ∨ 1022 < (1023 : Int)) ∧
      ∃ rv, Instr.sd 1 2 3 = .sd 1 2 rv :=
  ⟨⟨regs [(1, 511#16)], by decide, by decide, 0, rfl⟩, ⟨regs [(1, 1023#16)], by decide, by decide, 3, rfl⟩⟩

/-- The last address, stored to and loaded from. -/
theorem witness_StoreThenLoadRoundTrip : ∃ s t u : State, s.effectiveAddress 1 2 = 1022 ∧ inDataRange 1022 ∧
    exec (.sd 1 2 3) s = .next t ∧ SameData t u ∧ u.effectiveAddress 1 2 = 1022 :=
  ⟨regs [(1, 1022#16), (3, 0xABCD#16)], _, _, by decide, by decide, rfl, fun _ => rfl, by decide⟩

/-- Stores at 512 and 513, then loads at both; and a StoreData at the last offset. -/
theorem witness_DataIsBigEndian :
    (∃ s t u v w w' : State, inDataRange (s.effectiveAddress 1 2) ∧ exec (.sd 1 2 3) s = .next t ∧ SameData t u ∧
      u.effectiveAddress 1 4 = s.effectiveAddress 1 2 + 1 ∧ inDataRange (u.effectiveAddress 1 4) ∧
      exec (.sd 1 4 2) u = .next v ∧ SameData v w ∧ w.effectiveAddress 1 2 = s.effectiveAddress 1 2 ∧
      SameData v w' ∧ w'.effectiveAddress 1 4 = s.effectiveAddress 1 2 + 1) ∧
    (hostStoreData ⟨1, 510⟩ 0x0102#16 State.reset).reply = .ok :=
  ⟨⟨regs [(1, 512#16), (3, 0xABCD#16), (4, 1#16)], _, _, _, _, _, by decide, rfl, fun _ => rfl, by decide, by decide, rfl,
    fun _ => rfl, by decide, fun _ => rfl, by decide⟩, by decide⟩

theorem witness_InstructionMemoryIsImmutable :
    (∃ s t : State, stepUnder opcodeMap oddPcPolicy s = .next t ∧ Host.Core.run Sys2Proof.core 1 s = .next t) ∧
    ∃ s : State, s.effectiveAddress 1 2 < 512 :=
  ⟨⟨at_ (regs []) 0 0x1003#16, _, rfl, run_succ_iff.mpr ⟨_, rfl, rfl⟩⟩, ⟨regs [(1, 511#16)], by decide⟩⟩

theorem witness_ExecuteCannotSeeInstructionMemory :
    (∃ s t : State, exec (.ld 0 1 2) s = .next t) ∧ ∃ s t : State, exec (.sd 1 2 3) s = .next t :=
  ⟨⟨regs [(1, 512#16)], _, rfl⟩, ⟨regs [(1, 1022#16)], _, rfl⟩⟩

theorem witness_JmpGoesToOwnAddressPlusOffset :
    (((0 : CodeAddr).toNat : Int)) = (((510 : CodeAddr).toNat : Int) + 2) % 512 := by decide

theorem witness_BeqzBranchesExactlyOnZero : (regs []).readReg 1 = 0 ∧ (regs [(1, 0x8000#16)]).readReg 1 ≠ 0 := by decide

theorem witness_UnassignedOpcodesAreSkipped : ∀ o : Nibble, o = 4 ∨ o = 5 ∨ o = 9 ∨ o = 11 ∨ o = 15 →
    ∃ (s : State) (f : Fields), s.run = .running ∧ ¬ (oddPcPolicy = .fault ∧ s.pc.toNat % 2 = 1) ∧
      s.instrAt (s.pc.toNat / 2) = f.toWord ∧ f.opcode = o := by
  rintro o (rfl | rfl | rfl | rfl | rfl)
  · exact ⟨at_ (regs []) 0 0x4ABC#16, ⟨4, 10, 11, 12⟩, by decide⟩
  · exact ⟨at_ (regs []) 0 0x5000#16, ⟨5, 0, 0, 0⟩, by decide⟩
  · exact ⟨at_ (regs []) 0 0x9FFF#16, ⟨9, 15, 15, 15⟩, by decide⟩
  · exact ⟨at_ (regs []) 0 0xB123#16, ⟨11, 1, 2, 3⟩, by decide⟩
  · exact ⟨at_ (regs []) 0 0xF00F#16, ⟨15, 0, 0, 15⟩, by decide⟩

theorem witness_StepRunsDecodedInstruction : ∃ s : State, s.run = .running ∧ s.pc.toNat % 2 = 0 ∧
    (Instr.beqz 1 6).wellFormed = true ∧ s.instrAt (s.pc.toNat / 2) = encode (.beqz 1 6) :=
  ⟨at_ (regs []) 510 0xD106#16, by decide⟩

theorem witness_OddFetchTakesFault : ∃ s : State, s.run = .running ∧ s.pc.toNat % 2 = 1 :=
  ⟨(regs []).setPc 511, by decide⟩

theorem witness_FloorPolicyFetchesTheSlot : ∃ s : State, s.run = .running := ⟨(regs []).setPc 3, by decide⟩

theorem witness_EngineStepsExactlyWhileRunning : State.reset.run = .load ∧ ((regs []).setRun .halted).run = .halted ∧
    ((regs []).raise (.misalignedFetch 3)).run = .faulted ∧ (regs []).run = .running := by decide

/-- An SD in range, a BEQZ not taken, and a HLT, each in a step that does not fault. -/
theorem witness_EveryStepObeysTheFrameRule :
    (∃ s t : State, stepUnder opcodeMap oddPcPolicy s = .next t ∧ ¬ (oddPcPolicy = .fault ∧ s.pc.toNat % 2 = 1) ∧
      decodeWith opcodeMap (s.instrAt (s.pc.toNat / 2)) = .sd 1 2 3 ∧ t.run ≠ .faulted) ∧
    (∃ s t : State, stepUnder opcodeMap oddPcPolicy s = .next t ∧ ¬ (oddPcPolicy = .fault ∧ s.pc.toNat % 2 = 1) ∧
      decodeWith opcodeMap (s.instrAt (s.pc.toNat / 2)) = .beqz 1 6 ∧ s.readReg 1 ≠ 0 ∧ t.run ≠ .faulted) ∧
    ∃ s t : State, stepUnder opcodeMap oddPcPolicy s = .next t ∧ ¬ (oddPcPolicy = .fault ∧ s.pc.toNat % 2 = 1) ∧
      decodeWith opcodeMap (s.instrAt (s.pc.toNat / 2)) = .hlt ∧ t.run ≠ .faulted :=
  ⟨⟨at_ (regs [(1, 512#16)]) 0 0xA123#16, _, rfl, by decide, by decide, by decide⟩,
    ⟨at_ (regs [(1, 1#16)]) 0 0xD106#16, _, rfl, by decide, by decide, by decide, by decide⟩,
    ⟨at_ (regs []) 0 0xE000#16, _, rfl, by decide, by decide, by decide⟩⟩

/-- A step that halts, and one that ends the run in no way. -/
theorem witness_RunEndsNormallyExactlyOnHlt :
    (∃ s t : State, stepUnder opcodeMap oddPcPolicy s = .next t ∧ t.run = .halted) ∧
    ∃ s t : State, stepUnder opcodeMap oddPcPolicy s = .next t ∧ t.run ≠ .halted ∧ t.run ≠ .faulted :=
  ⟨⟨at_ (regs []) 0 0xEFFF#16, _, rfl, by decide⟩, ⟨at_ (regs []) 0 0x0000#16, _, rfl, by decide, by decide⟩⟩

/-- A fetch that faults, and an LD that faults. -/
theorem witness_StepFaultsExactlyWhenTheRulesSay :
    (∃ s t : State, stepUnder opcodeMap oddPcPolicy s = .next t ∧
      decodeWith opcodeMap (s.instrAt (s.pc.toNat / 2)) = .add 0 0 0 ∧ t.run = .faulted) ∧
    ∃ s t : State, stepUnder opcodeMap oddPcPolicy s = .next t ∧
      decodeWith opcodeMap (s.instrAt (s.pc.toNat / 2)) = .ld 0 1 2 ∧ t.run = .faulted :=
  ⟨⟨(regs []).setPc 327, _, rfl, by decide, by decide⟩,
    ⟨at_ (regs [(1, 1023#16)]) 0 0x8012#16, _, rfl, by decide, by decide⟩⟩

/-- Each kind of event, from the run-state its clause speaks of. -/
theorem witness_RunStateTransitionsAreTheListedOnes :
    (∃ t, Transition opcodeMap oddPcPolicy (.host .reset) ((regs []).setRun .halted) t) ∧
    (∃ t, Transition opcodeMap oddPcPolicy (.host .start) State.reset t ∧ State.reset.run = .load) ∧
    (∃ t, Transition opcodeMap oddPcPolicy (.host .start) (regs []) t ∧ (regs []).run ≠ .load) ∧
    (∃ t, Transition opcodeMap oddPcPolicy (.host (.setReg 1 5#16)) State.reset t) ∧
    ∃ t, Transition opcodeMap oddPcPolicy .engine (regs []) t :=
  ⟨⟨_, rfl⟩, ⟨_, rfl, rfl⟩, ⟨_, rfl, by decide⟩, ⟨_, rfl⟩, ⟨_, rfl⟩⟩

/-- A state of a run, with both memories non-empty, meets the invariant. -/
theorem inv_of_s8 : Inv s8 where
  imem_wf := by decide
  dmem_wf := by decide
  fault_iff := by decide
  record_truthful r h := by
    have hn : s8.fault = none := by decide
    rw [hn] at h
    cases h
  load_pc := by decide

theorem witness_EveryStepKeepsTheInvariant : ∃ s t : State, Inv s ∧ step s = .next t ∧
    stepUnder opcodeMap oddPcPolicy s = .next t := ⟨s8, _, inv_of_s8, rfl, rfl⟩

theorem witness_EveryHostMoveKeepsTheInvariant : ∃ s : State, Inv s := ⟨s8, inv_of_s8⟩

/-- Reset followed by Start and one step; and reset itself, which is in Load. -/
theorem witness_ReachableStatesMeetTheInvariant :
    (∃ s : State, Reachable opcodeMap oddPcPolicy s ∧ s.run = .running) ∧
    ∃ s : State, Reachable opcodeMap oddPcPolicy s ∧ s.run = .load :=
  ⟨⟨_, .event .engine (.event (.host .start) .reset rfl) rfl, by decide⟩, ⟨_, .reset, rfl⟩⟩

theorem branches_of_empty (s : State) (h : s.imem = []) : EvenBranches s := by
  intro slot _ off ho
  rw [show s.instrAt slot = 0x0000#16 by rw [State.instrAt, h]; rfl] at ho
  have : (decode 0x0000#16).branchOffset = none := by decide
  rw [this] at ho
  cases ho

theorem witness_EvenBranchesNeverMisalignTheFetch : ∃ s t : State, EvenBranches s ∧ s.pc.toNat % 2 = 0 ∧ s.fault = none ∧
    Host.Core.run Sys2Proof.core 1 s = .next t :=
  ⟨regs [], _, branches_of_empty _ rfl, by decide, by decide, run_succ_iff.mpr ⟨_, rfl, rfl⟩⟩

theorem witness_WithoutHltTheRunNeverHalts : ∃ s : State, s.run = .running ∧
    ∀ slot, slot < 256 → decode (s.instrAt slot) ≠ .hlt :=
  ⟨regs [], rfl, fun slot _ => by rw [show (regs []).instrAt slot = 0x0000#16 from rfl]; decide⟩

theorem witness_JumpToItselfRunsForever : ∃ s : State, s.run = .running ∧ s.pc.toNat % 2 = 0 ∧
    decode (s.instrAt (s.pc.toNat / 2)) = .jmp 0 := ⟨at_ (regs []) 510 0xC000#16, by decide⟩

theorem witness_BudgetNeverReportsAFalseHalt : ∃ s t : State, s.run = .running ∧
    Host.Core.run Sys2Proof.core 1 s = .next t ∧ t.run = .halted :=
  ⟨at_ (regs []) 510 0xE000#16, _, by decide, run_succ_iff.mpr ⟨_, rfl, rfl⟩, by decide⟩

/-- Two different states with the same memories. -/
theorem witness_CanonicalMemoriesAreEqual : ∃ s t : State, Inv s ∧ Inv t ∧ SameInstrs s t ∧ SameData s t ∧ s ≠ t :=
  ⟨s8, s8.writeReg 0 5#16, inv_of_s8,
    ⟨inv_of_s8.imem_wf, inv_of_s8.dmem_wf, inv_of_s8.fault_iff, inv_of_s8.record_truthful, inv_of_s8.load_pc⟩,
    fun _ => rfl, fun _ => rfl, by decide⟩

/-- Each clause at the edge of its range: offsets 510 and 511, and the data segment. -/
theorem witness_LoadInstrStoresOrRejects : State.reset.run = .load ∧
    (∃ a : AddressRef, a.segment = 0 ∧ a.offset = 510 ∧ a.offset.toNat % 2 = 0) ∧
    (∃ a : AddressRef, a.segment = 0 ∧ a.offset = 511 ∧ a.offset.toNat % 2 = 1) ∧ ∃ a : AddressRef, a.segment = 1 :=
  ⟨rfl, ⟨⟨0, 510⟩, by decide⟩, ⟨⟨0, 511⟩, by decide⟩, ⟨⟨1, 0⟩, by decide⟩⟩

/-- Each clause at the edge of its range: offsets 510 and 511, and the code segment. -/
theorem witness_StoreDataWritesOrRejects : State.reset.run = .load ∧
    (∃ a : AddressRef, a.segment = 1 ∧ a.offset.toNat = 510 ∧ a.offset.toNat < 511) ∧
    (∃ a : AddressRef, a.segment = 1 ∧ a.offset.toNat = 511) ∧ ∃ a : AddressRef, a.segment = 0 :=
  ⟨rfl, ⟨⟨1, 510⟩, by decide⟩, ⟨⟨1, 511⟩, by decide⟩, ⟨⟨0, 0⟩, by decide⟩⟩

/-- Indexes 0 and 15 inside, -1 and 16 outside. -/
theorem witness_SetRegWritesOrIgnores : State.reset.run = .load ∧ (∃ r : Reg, (0 : Int) = r.val) ∧
    (∃ r : Reg, (15 : Int) = r.val) ∧ ((-1 : Int) < 0 ∨ 15 < (-1 : Int)) ∧ ((16 : Int) < 0 ∨ 15 < (16 : Int)) :=
  ⟨rfl, ⟨0, rfl⟩, ⟨15, rfl⟩, by decide, by decide⟩

theorem witness_StartRunsSlotZeroFirst : ∃ s : State, s.run = .load ∧ Inv s :=
  ⟨State.reset, rfl, ⟨by decide, by decide, by decide, fun _ h => (by cases h), by decide⟩⟩

theorem witness_HostIsRefusedOutsideLoad : ((regs []).setRun .halted).run ≠ .load ∧ (regs []).run = .running ∧
    HostOp.start ≠ .reset := by decide

theorem witness_ReadAccessorsShowTheState :
    (∃ s : State, s.run ≠ .running ∧ s.run = .faulted) ∧ ∃ s : State, s.run ≠ .running ∧ s.run ≠ .faulted :=
  ⟨⟨(regs []).raise (.misalignedFetch 3), by decide⟩, ⟨(regs []).setRun .halted, by decide⟩⟩

theorem witness_ByteViewShowsSlotsAndCells : 255 ≤ 255 ∧ 511 ≤ 511 ∧ 1023 < 1024 := by decide

end Sys2Proof.Tests
end

section
/-! PROOFS. The family of spec/10_state.md: the invariant along steps, runs with even branches, the canonical form of
the memories, the fetch under ODD_PC_POLICY = floor, and the state after reset. -/

namespace Sys2Proof.Machine

/-! ## Canonical memories are determined by what they read as -/

/-- A canonical list holds exactly the cells that do not read as the default. -/
theorem Memory.mem_iff_read {α : Type} {dflt : Nat → α} {size : Nat} {m : List (Nat × α)}
    (h : Memory.wf dflt size m) (c : Nat × α) :
    c ∈ m ↔ Memory.read dflt m c.1 = c.2 ∧ c.2 ≠ dflt c.1 := by
  induction m with
  | nil => simpa using Eq.symm
  | cons d m ih =>
    obtain ⟨hsorted, hcells⟩ := h
    obtain ⟨hfirst, htail⟩ := List.pairwise_cons.mp hsorted
    rw [Memory.read_cons]
    split
    · next hk =>
      have hnot : c ∉ m := fun hc => absurd (hfirst c hc) (by omega)
      have hd := (hcells d List.mem_cons_self).2
      constructor
      · intro hc
        obtain rfl := (List.mem_cons.mp hc).resolve_right hnot
        exact ⟨rfl, hd⟩
      · rintro ⟨hv, -⟩
        exact List.mem_cons.mpr (.inl (Prod.ext hk.symm hv.symm))
    · next hk =>
      have hne : c ≠ d := fun e => hk (e ▸ rfl)
      rw [List.mem_cons, or_iff_right hne]
      exact ih ⟨htail, fun e he => hcells e (List.mem_cons_of_mem d he)⟩

/-- Canonical lists that read the same at every index are equal. -/
theorem Memory.eq_of_read_eq {α : Type} {dflt : Nat → α} {size : Nat} {m n : List (Nat × α)}
    (hm : Memory.wf dflt size m) (hn : Memory.wf dflt size n)
    (h : ∀ k, Memory.read dflt m k = Memory.read dflt n k) : m = n := by
  have : Std.Antisymm fun a b : Nat × α => a.1 < b.1 := ⟨fun _ _ hab hba => absurd hab hba.asymm⟩
  have : Std.Irrefl fun a b : Nat × α => a.1 < b.1 := ⟨fun a => lt_irrefl a.1⟩
  refine List.Pairwise.eq_of_mem_iff hm.1 hn.1 fun c => ?_
  rw [Memory.mem_iff_read hm, Memory.mem_iff_read hn, h]

/-- Settles O44: a canonical list holds exactly the cells that differ from the default, in rising order. -/
theorem canonicalMemoriesAreEqual : Obligations.CanonicalMemoriesAreEqual := by
  unfold Obligations.CanonicalMemoriesAreEqual
  intro s t hs ht hi hd
  exact ⟨Memory.eq_of_read_eq ht.imem_wf hs.imem_wf hi, Memory.eq_of_read_eq ht.dmem_wf hs.dmem_wf hd⟩

/-! ## The operations of a step keep the invariant -/

/-- A state that meets the invariant and has not faulted records no fault. -/
theorem Inv.fault_eq_none {s : State} (h : Inv s) (hr : s.run ≠ .faulted) : s.fault = none :=
  not_not.mp (mt h.fault_iff.mpr hr)

theorem Inv.writeReg {s : State} (h : Inv s) (r : Reg) (v : Word) : Inv (s.writeReg r v) :=
  ⟨h.imem_wf, h.dmem_wf, h.fault_iff, h.record_truthful, h.load_pc⟩

theorem Inv.putDataWord {s : State} (h : Inv s) {j : Nat} (hj : j + 1 < Config.dmemBytes) (v : Word) :
    Inv (s.putDataWord j v) :=
  ⟨h.imem_wf, s.putDataWord_wf v hj h.dmem_wf, h.fault_iff, h.record_truthful, h.load_pc⟩

/-- Only in Load, where it is 0, and in Faulted, where the record speaks of it, does the invariant bind `pc`. -/
theorem Inv.setPc {s : State} (h : Inv s) (hr : s.run = .running) (a : CodeAddr) : Inv (s.setPc a) where
  imem_wf := h.imem_wf
  dmem_wf := h.dmem_wf
  fault_iff := h.fault_iff
  record_truthful r hf := by
    rw [State.setPc_fault, h.fault_eq_none (by simp [hr])] at hf
    cases hf
  load_pc hl := by
    rw [State.setPc_run, hr] at hl
    cases hl

theorem Inv.advancePc {s : State} (h : Inv s) (hr : s.run = .running) : Inv s.advancePc := h.setPc hr _

/-- The run-state may become any but Faulted where no fault is recorded, and Load only where `pc` is 0. -/
theorem Inv.setRun {s : State} (h : Inv s) (hf : s.fault = none) {q : RunState} (hq : q ≠ .faulted)
    (hl : q = .load → s.pc = 0) : Inv (s.setRun q) where
  imem_wf := h.imem_wf
  dmem_wf := h.dmem_wf
  fault_iff := by simp [hf, hq]
  record_truthful := h.record_truthful
  load_pc := hl

theorem Inv.raise {s : State} (h : Inv s) {r : FaultRecord} (ht : r.truthful s.pc) : Inv (s.raise r) where
  imem_wf := h.imem_wf
  dmem_wf := h.dmem_wf
  fault_iff := by simp
  record_truthful q hq := by
    obtain rfl := Option.some.inj hq
    exact ht
  load_pc hl := by cases hl

/-- `pc` stands 2 past `currentAddr`, mod 512 (spec/10_state.md R15). -/
theorem State.mod512_currentAddr_add_two (s : State) : mod512 ((s.currentAddr.toNat : Int) + 2) = s.pc := by
  apply BitVec.eq_of_toNat_eq
  have h1 : (s.currentAddr.toNat : Int) = _ := mod512_toNat _
  have h2 := mod512_toNat ((s.currentAddr.toNat : Int) + 2)
  have := s.pc.isLt
  omega

/-- What an AddressRangeFault records is truthful (spec/60_exceptions.md R111, R112). -/
theorem Inv.raiseAddressRange {s : State} (h : Inv s) {ra rb : Reg} (ho : ¬ inDataRange (s.effectiveAddress ra rb)) :
    Inv (s.raiseAddressRange (s.effectiveAddress ra rb)) := by
  obtain ⟨hlo, hhi⟩ := s.effectiveAddress_range ra rb
  exact h.raise ⟨ho, hlo, hhi, s.mod512_currentAddr_add_two.symm⟩

/-! ## Every step keeps the invariant -/

theorem ExecCase.keeps_inv {i : Instr} {s t : State} (hc : ExecCase i s t) (h : Inv s) (hr : s.run = .running) :
    Inv t := by
  cases hc with
  | computed rd v => exact h.writeReg rd v
  | loaded rd => exact h.writeReg rd _
  | loadFaulted _ _ _ _ ho => exact h.raiseAddressRange ho
  | stored _ _ _ _ hin => exact h.putDataWord (dataLoc_add_one_lt hin) _
  | storeFaulted _ _ _ _ ho => exact h.raiseAddressRange ho
  | jumped => exact h.setPc hr _
  | taken => exact h.setPc hr _
  | notTaken => exact h
  | halted => exact h.setRun (h.fault_eq_none (by simp [hr])) (by decide) (by simp)
  | skipped => exact h

theorem stepUnder_keeps_inv {m : OpcodeMap} {p : OddPcPolicy} {s t : State} (h : Inv s)
    (hs : stepUnder m p s = .next t) : Inv t := by
  obtain ⟨hr, hc⟩ := stepUnder_next_cases s hs
  cases hc with
  | fetchFaulted _ hodd => exact h.raise ⟨hodd, rfl⟩
  | executed _ he => exact he.keeps_inv (h.advancePc hr) hr

/-- Settles O37: each operation a step is made of keeps the invariant, and the faults record what happened. -/
theorem everyStepKeepsTheInvariant : Obligations.EveryStepKeepsTheInvariant := by
  unfold Obligations.EveryStepKeepsTheInvariant
  exact ⟨fun _ _ h hs => stepUnder_keeps_inv h hs, fun _ _ _ _ h hs => stepUnder_keeps_inv h hs⟩

/-! ## Runs with even branches -/

/-- What every step keeps, every run keeps. -/
theorem run_keeps {P : State → Prop} (hstep : ∀ s t, P s → step s = .next t → P t) :
    ∀ (k : Nat) {s t : State}, P s → Host.Core.run Sys2Proof.core k s = .next t → P t
  | 0, _, _, h, hrun => run_zero_iff.mp hrun ▸ h
  | k + 1, s, _, h, hrun => by
    obtain ⟨u, hu, hrest⟩ := run_succ_iff.mp hrun
    exact run_keeps hstep k (hstep s u h hu) hrest

theorem State.fetchSlot_lt (s : State) : s.fetchSlot < 256 := by
  have := s.pc.isLt
  unfold State.fetchSlot
  omega

/-- `mod512` keeps parity, since 512 is even. -/
theorem mod512_even {z : Int} (h : z % 2 = 0) : (mod512 z).toNat % 2 = 0 := by
  have := mod512_toNat z
  omega

theorem State.advancePc_even {s : State} (h : s.pc.toNat % 2 = 0) : s.advancePc.pc.toNat % 2 = 0 :=
  mod512_even (by omega)

theorem State.branchTarget_even {s : State} {off : Int} (h : s.pc.toNat % 2 = 0) (ho : off % 2 = 0) :
    (s.branchTarget off).toNat % 2 = 0 :=
  mod512_even (by omega)

/-- An instruction without an odd branch offset keeps an even `pc` even. -/
theorem ExecCase.pc_even {i : Instr} {s t : State} (hc : ExecCase i s t) (h : s.pc.toNat % 2 = 0)
    (ho : ∀ off, i.branchOffset = some off → off % 2 = 0) : t.pc.toNat % 2 = 0 := by
  cases hc with
  | computed => exact h
  | loaded => exact h
  | loadFaulted => exact h
  | stored => exact h
  | storeFaulted => exact h
  | jumped off hi => exact State.branchTarget_even h (ho off (hi ▸ rfl))
  | taken _ off hi => exact State.branchTarget_even h (ho off (hi ▸ rfl))
  | notTaken => exact h
  | halted => exact h
  | skipped => exact h

/-- The execute phase raises no MisalignedFetchFault (spec/60_exceptions.md R111: only a fetch does). -/
theorem ExecCase.misalignedFetch_old {i : Instr} {s t : State} (hc : ExecCase i s t) {q : CodeAddr}
    (hq : t.fault = some (.misalignedFetch q)) : s.fault = some (.misalignedFetch q) := by
  cases hc with
  | computed => exact hq
  | loaded => exact hq
  | loadFaulted => cases hq
  | stored => exact hq
  | storeFaulted => cases hq
  | jumped => exact hq
  | taken => exact hq
  | notTaken => exact hq
  | halted => exact hq
  | skipped => exact hq

/-- What a run with even branches keeps: the branches, an even `pc`, and no MisalignedFetchFault. -/
structure EvenRun (s : State) : Prop where
  branches : EvenBranches s
  pc_even : s.pc.toNat % 2 = 0
  aligned : ∀ q, s.fault ≠ some (.misalignedFetch q)

theorem EvenRun.step {s t : State} (h : EvenRun s) (hs : Machine.step s = .next t) : EvenRun t := by
  obtain ⟨-, hc⟩ := stepUnder_next_cases s hs
  cases hc with
  | fetchFaulted _ hodd =>
    have := h.pc_even
    omega
  | executed _ he =>
    refine ⟨?_, he.pc_even (State.advancePc_even h.pc_even) (h.branches _ s.fetchSlot_lt), fun q hq =>
      h.aligned q (he.misalignedFetch_old hq)⟩
    have hi : t.imem = s.imem := he.imem_eq
    intro slot
    rw [State.instrAt, hi]
    exact h.branches slot

/-- Settles O40, by the invariant `EvenRun` along the run. -/
theorem evenBranchesNeverMisalignTheFetch : Obligations.EvenBranchesNeverMisalignTheFetch := by
  unfold Obligations.EvenBranchesNeverMisalignTheFetch
  intro s hb hpc hf k t hrun
  have h : EvenRun t := run_keeps (fun _ _ => EvenRun.step) k ⟨hb, hpc, by simp [hf]⟩ hrun
  exact ⟨h.pc_even, h.aligned⟩

/-! ## The fetch under ODD_PC_POLICY = floor -/

/-- Settles O30: under `floor` the fetch always gives the slot's word, and adding 2 mod 512 keeps parity. -/
theorem floorPolicyFetchesTheSlot : Obligations.FloorPolicyFetchesTheSlot := by
  unfold Obligations.FloorPolicyFetchesTheSlot
  intro m s hr
  constructor
  · rw [stepUnder_of_word s hr s.fetch_floor, State.advancePc_eq]
    rfl
  · rw [BitVec.toNat_add, show (2 : CodeAddr).toNat = 2 from rfl]
    omega

/-! ## The state after reset -/

/-- Settles O36: empty memories are canonical, there is no fault, and `pc` is 0. -/
theorem invariantHoldsAtReset : Obligations.InvariantHoldsAtReset where
  imem_wf := Memory.wf_nil _ _
  dmem_wf := Memory.wf_nil _ _
  fault_iff := by simp
  record_truthful _ h := by cases h
  load_pc _ := State.reset_pc

theorem State.readReg_reset (r : Reg) : State.reset.readReg r = 0 := by
  simp [State.readReg, State.reset]

theorem State.instrAt_reset (k : Nat) : State.reset.instrAt k = 0 := Memory.read_nil imemReset k

theorem State.dataByte_reset (j : Nat) : State.reset.dataByte j = 0 := Memory.read_nil dmemReset j

/-- The all-zero word is `ADD R0, R0, R0` (spec/10_state.md R25). -/
theorem decode_zero : decode 0 = .add 0 0 0 := by decide

/-- Settles O45, field by field. -/
theorem resetLeavesTheListedValues : Obligations.ResetLeavesTheListedValues := by
  unfold Obligations.ResetLeavesTheListedValues
  intro s
  refine ⟨rfl, rfl, State.readReg_reset, State.reset_pc, fun k => ⟨State.instrAt_reset k, ?_⟩, State.dataByte_reset,
    State.reset_run, State.reset_fault⟩
  rw [State.instrAt_reset, decode_zero]

end Sys2Proof.Machine
end

section
/-! PROOFS. The family of spec/20_memory.md: LD and SD in range and out of range, big-endian pairs and their overlap,
instruction memory out of reach of every instruction, and the byte view. -/

namespace Sys2Proof.Machine

/-! ## Data bytes and words after a store -/

@[simp] theorem State.dataByte_putDataWord_hi (s : State) (j : Nat) (v : Word) :
    (s.putDataWord j v).dataByte j = hiByte v := by
  rw [State.dataByte_putDataWord, if_neg (by omega), if_pos rfl]

@[simp] theorem State.dataByte_putDataWord_lo (s : State) (j : Nat) (v : Word) :
    (s.putDataWord j v).dataByte (j + 1) = loByte v := by
  rw [State.dataByte_putDataWord, if_pos rfl]

/-- A value read one byte below a stored one ends in the stored one's high byte (spec/20_memory.md R34). -/
theorem State.dataWord_putDataWord_succ (s : State) (j : Nat) (v : Word) :
    (s.putDataWord (j + 1) v).dataWord j = ofBytes (s.dataByte j) (hiByte v) := by
  rw [State.dataWord, State.dataByte_putDataWord_hi, State.dataByte_putDataWord, if_neg (by omega), if_neg (by omega)]

theorem SameData.dataWord_eq {s t : State} (h : SameData s t) (j : Nat) : t.dataWord j = s.dataWord j := by
  rw [State.dataWord, State.dataWord, h, h]

theorem dataLoc_add_one {ea : Int} (h : inDataRange ea) : dataLoc (ea + 1) = dataLoc ea + 1 := by
  obtain ⟨hlo, -⟩ := h
  simp only [dataLoc, Config.dataBase]
  omega

/-! ## LD and SD by range -/

theorem exec_sd_next_eq {ra rb rv : Reg} {s t : State} (hin : inDataRange (s.effectiveAddress ra rb))
    (h : exec (.sd ra rb rv) s = .next t) :
    t = s.putDataWord (dataLoc (s.effectiveAddress ra rb)) (s.readReg rv) :=
  Host.Outcome.next.inj (h.symm.trans (execSd_of_inRange s ra rb rv hin))

theorem exec_ld_reads_dataWord {s : State} {ra rb : Reg} {ea : Int} (rd : Reg) (hea : s.effectiveAddress ra rb = ea)
    (hin : inDataRange ea) : ∃ t, exec (.ld rd ra rb) s = .next t ∧ t.readReg rd = s.dataWord (dataLoc ea) := by
  subst hea
  exact ⟨_, execLd_of_inRange s rd ra rb hin, s.readReg_writeReg_same rd _⟩

theorem exec_access_of_outOfRange {i : Instr} {ra rb : Reg} {s : State}
    (hi : (∃ rd, i = .ld rd ra rb) ∨ ∃ rv, i = .sd ra rb rv) (hout : ¬ inDataRange (s.effectiveAddress ra rb)) :
    exec i s = .next (s.raiseAddressRange (s.effectiveAddress ra rb)) := by
  obtain ⟨rd, rfl⟩ | ⟨rv, rfl⟩ := hi
  · exact execLd_of_outOfRange s rd ra rb hout
  · exact execSd_of_outOfRange s ra rb rv hout

/-- A fault writes the record and the run-state and nothing else (spec/60_exceptions.md R114). -/
theorem State.onlyControl_raise (s : State) (r : FaultRecord) : OnlyControl s (s.raise r) :=
  ⟨s.readReg_raise r, s.raise_pc r, s.instrAt_raise r, s.dataByte_raise r⟩

/-- Settles O19: out of range both instructions answer `raiseAddressRange`, whose address is `pc - 2` mod 512. -/
theorem outOfRangeAccessTakesFault : Obligations.OutOfRangeAccessTakesFault := by
  unfold Obligations.OutOfRangeAccessTakesFault
  rintro i ra rb s _ hi rfl hout
  have hnot : ¬ inDataRange (s.effectiveAddress ra rb) := fun ⟨hlo, hhi⟩ =>
    hout.elim (not_lt.mpr hlo) (not_lt.mpr hhi)
  exact ⟨_, s.currentAddr, exec_access_of_outOfRange hi hnot, rfl, rfl, mod512_toNat _, s.onlyControl_raise _⟩

/-! ## Big-endian data -/

/-- StoreData answers ok only where it has written the value (spec/70_reset_and_hazards.md R139). -/
theorem hostStoreData_state_of_ok {addr : AddressRef} {value : Word} {s : State}
    (h : (hostStoreData addr value s).reply = .ok) :
    (hostStoreData addr value s).state = s.putDataWord addr.offset.toNat value := by
  by_cases hl : s.run = .load
  · rw [hostStoreData, s.whenLoading_of_load _ hl] at h ⊢
    split at h
    · next hc => rw [if_pos hc]
    · cases h
  · rw [hostStoreData, s.whenLoading_of_not_load _ hl] at h
    cases h

/-- Settles O21: after two overlapping stores the first byte is the first value's high byte, and the pair from the
second byte on is the second value. -/
theorem dataIsBigEndian : Obligations.DataIsBigEndian := by
  unfold Obligations.DataIsBigEndian
  constructor
  · intro ra rb rv s t hin ht
    obtain rfl := exec_sd_next_eq hin ht
    refine ⟨s.dataByte_putDataWord_hi _ _, s.dataByte_putDataWord_lo _ _, ?_⟩
    intro ra' rb' rv' u v hsame hea hin' hv rd la lb w hw
    obtain rfl := exec_sd_next_eq hin' hv
    rw [hea] at hin' hw
    constructor
    · intro hat
      obtain ⟨y, hy, hval⟩ := exec_ld_reads_dataWord rd hat hin
      refine ⟨y, hy, ?_⟩
      rw [hval, hw.dataWord_eq, dataLoc_add_one hin, State.dataWord_putDataWord_succ, hsame,
        State.dataByte_putDataWord_hi]
      rfl
    · intro hat
      obtain ⟨y, hy, hval⟩ := exec_ld_reads_dataWord rd hat hin'
      refine ⟨y, hy, ?_⟩
      rw [hval, hw.dataWord_eq, State.dataWord_putDataWord_same]
  · intro addr value s hok
    rw [hostStoreData_state_of_ok hok]
    exact ⟨s.dataByte_putDataWord_hi _ _, s.dataByte_putDataWord_lo _ _⟩

/-! ## Instruction memory during a run -/

theorem stepUnder_imem_eq {m : OpcodeMap} {p : OddPcPolicy} {s t : State} (h : stepUnder m p s = .next t) :
    t.imem = s.imem := by
  obtain ⟨-, hc⟩ := stepUnder_next_cases s h
  cases hc with
  | fetchFaulted => rfl
  | executed _ he => exact he.imem_eq

theorem SameInstrs.of_imem_eq {s t : State} (h : t.imem = s.imem) : SameInstrs s t :=
  fun k => congrArg (Memory.read imemReset · k) h

/-- Settles O22: no step writes `imem`, so no run does, and an SD below 512 is out of range. -/
theorem instructionMemoryIsImmutable : Obligations.InstructionMemoryIsImmutable := by
  unfold Obligations.InstructionMemoryIsImmutable
  refine ⟨fun k s t hrun => ?_, fun m p s t hs => .of_imem_eq (stepUnder_imem_eq hs), fun ra rb rv s hlow => ?_⟩
  · have hkeep : t.imem = s.imem :=
      run_keeps (P := fun u => u.imem = s.imem) (fun _ _ hu hs => (stepUnder_imem_eq hs).trans hu) k rfl hrun
    exact .of_imem_eq hkeep
  · have hout : ¬ inDataRange (s.effectiveAddress ra rb) := fun hin => not_lt.mpr hin.1 hlow
    obtain ⟨-, -, hinstrs, hdata⟩ := s.onlyControl_raise (.addressRange s.currentAddr (s.effectiveAddress ra rb))
    exact ⟨_, execSd_of_outOfRange s ra rb rv hout, rfl, hinstrs, hdata⟩

/-- The execute phase answers a next state that does not depend on instruction memory but for carrying it along. -/
theorem exec_with_imem (i : Instr) (s : State) (mem : List (Nat × Word)) :
    ∃ t, exec i s = .next t ∧ exec i { s with imem := mem } = .next { t with imem := mem } := by
  cases i with
  | ld rd ra rb =>
    by_cases h : inDataRange (s.effectiveAddress ra rb)
    · exact ⟨_, execLd_of_inRange s rd ra rb h, execLd_of_inRange { s with imem := mem } rd ra rb h⟩
    · exact ⟨_, execLd_of_outOfRange s rd ra rb h, execLd_of_outOfRange { s with imem := mem } rd ra rb h⟩
  | sd ra rb rv =>
    by_cases h : inDataRange (s.effectiveAddress ra rb)
    · exact ⟨_, execSd_of_inRange s ra rb rv h, execSd_of_inRange { s with imem := mem } ra rb rv h⟩
    · exact ⟨_, execSd_of_outOfRange s ra rb rv h, execSd_of_outOfRange { s with imem := mem } ra rb rv h⟩
  | beqz rt off =>
    by_cases h : s.readReg rt = 0
    · exact ⟨_, execBeqz_of_zero s rt off h, execBeqz_of_zero { s with imem := mem } rt off h⟩
    · exact ⟨_, execBeqz_of_nonzero s rt off h, execBeqz_of_nonzero { s with imem := mem } rt off h⟩
  | _ => exact ⟨_, rfl, rfl⟩

/-- Settles O23: the execute phase is a function of the other fields. -/
theorem executeCannotSeeInstructionMemory : Obligations.ExecuteCannotSeeInstructionMemory := by
  unfold Obligations.ExecuteCannotSeeInstructionMemory
  intro i s t mem h
  obtain ⟨u, hu, hmem⟩ := exec_with_imem i s mem
  obtain rfl := Host.Outcome.next.inj (hu.symm.trans h)
  exact hmem

/-! ## The byte view -/

theorem hiByte_eq_fields (w : Word) : hiByte w = (Fields.ofWord w).opcode ++ (Fields.ofWord w).op1 :=
  (BitVec.extractLsb'_append_extractLsb'_eq_extractLsb' (x := w) (len₁ := 4) (len₂ := 4)
    (show 12 = 8 + 4 from rfl)).symm

theorem loByte_eq_fields (w : Word) : loByte w = (Fields.ofWord w).op2 ++ (Fields.ofWord w).op3 :=
  (BitVec.extractLsb'_append_extractLsb'_eq_extractLsb' (x := w) (len₁ := 4) (len₂ := 4)
    (show 4 = 0 + 4 from rfl)).symm

/-- A byte is its high and its low nibble. -/
theorem nibbles_append (b : Byte) : b.extractLsb' 4 4 ++ b.extractLsb' 0 4 = b :=
  (BitVec.extractLsb'_append_extractLsb'_eq_extractLsb' rfl).trans BitVec.extractLsb'_eq_self

theorem State.byteView_slot_hi (s : State) {slot : Nat} (h : slot ≤ 255) :
    s.byteView (2 * slot) = hiByte (s.instrAt slot) := by
  rw [State.byteView, if_pos (show 2 * slot < 512 by omega), if_pos (by omega), Nat.mul_div_cancel_left slot two_pos]

theorem State.byteView_slot_lo (s : State) {slot : Nat} (h : slot ≤ 255) :
    s.byteView (2 * slot + 1) = loByte (s.instrAt slot) := by
  rw [State.byteView, if_pos (show 2 * slot + 1 < 512 by omega), if_neg (by omega),
    show (2 * slot + 1) / 2 = slot by omega]

theorem State.byteView_data (s : State) (j : Nat) : s.byteView (512 + j) = s.dataByte j := by
  rw [State.byteView, if_neg (show ¬ 512 + j < 512 by omega), Nat.add_sub_cancel_left]

theorem State.dump_length (s : State) : s.dump.length = 1024 := by
  rw [State.dump, List.length_map, List.length_range]

theorem State.dump_getElem? (s : State) {a : Nat} (h : a < 1024) :
    s.dump[a]? = some (a, (s.byteView a).extractLsb' 4 4, (s.byteView a).extractLsb' 0 4) := by
  rw [State.dump, List.getElem?_map, List.getElem?_range h, Option.map_some]

/-- Settles O52: the bytes of a word are pairs of fields, and a dump entry holds the two nibbles of its byte. -/
theorem byteViewShowsSlotsAndCells : Obligations.ByteViewShowsSlotsAndCells := by
  unfold Obligations.ByteViewShowsSlotsAndCells
  intro s
  refine ⟨fun slot h => ⟨?_, ?_⟩, fun j _ => s.byteView_data j, s.dump_length, fun a h => ?_⟩
  · rw [s.byteView_slot_hi h, hiByte_eq_fields]
  · rw [s.byteView_slot_lo h, loByte_eq_fields]
  · exact ⟨_, _, s.dump_getElem? h, (nibbles_append _).symm⟩

end Sys2Proof.Machine
end

section
/-! PROOFS. The family of spec/30_encoding.md: the round trips of decoder and encoder, what the decoder reads of each
field, the instruction constructor, the unassigned opcodes in a step, and the 10-bit address value. -/

namespace Sys2Proof

open Machine

/-! ## Decoding what was encoded -/

theorem sext8_offField_hi_lo {off : Int} (h : offOk off = true) : sext8 (offField (offHi off) (offLo off)) = off := by
  rw [offField_hi_lo, sext8_ofInt h]

/-- On fields, the decoder undoes the encoder: each operand field is read back as the operand it was made of. -/
theorem decodeFields_encodeFields (m : OpcodeMap) {i : Instr} (h : i.wellFormed = true) :
    decodeFields m (encodeFields m i) = i := by
  cases i with
  | addi | subi | muli => simp [decodeFields, encodeFields, m.operation_opcode, sext4_immField h]
  | jmp | beqz => simp only [decodeFields, encodeFields, m.operation_opcode, regOf_regField, sext8_offField_hi_lo h]
  | _ => simp [decodeFields, encodeFields, m.operation_opcode]

/-- Settles O1: the layout loses no field, and on fields the decoder undoes the encoder. -/
theorem decodeEncodeRoundTrip : Obligations.DecodeEncodeRoundTrip := by
  unfold Obligations.DecodeEncodeRoundTrip
  intro m i h
  rw [encodeWith, decodeWith_toWord, decodeFields_encodeFields m h]

/-! ## Encoding what was decoded -/

/-- Every value of the opcode field is the opcode of an operation (spec/30_encoding.md R57). -/
theorem OpcodeMap.opcode_surjective (m : OpcodeMap) (v : Nibble) : ∃ o, m.opcode o = v :=
  ⟨m.operation v, m.opcode_operation v⟩

theorem encodeFields_decodeFields (m : OpcodeMap) (f : Fields) : encodeFields m (decodeFields m f) = f.usedOnly m := by
  obtain ⟨op, a, b, c⟩ := f
  obtain ⟨o, rfl⟩ := m.opcode_surjective op
  cases o <;> simp [decodeFields, encodeFields, Fields.usedOnly, m.operation_opcode]

/-- Settles O2: on fields, the encoder gives back what the decoder read and 0 for what it dropped. -/
theorem encodeDecodeKeepsUsedFields : Obligations.EncodeDecodeKeepsUsedFields := by
  unfold Obligations.EncodeDecodeKeepsUsedFields
  intro m w
  rw [encodeWith, decodeWith, encodeFields_decodeFields]

/-! ## The decoder is total and selects by the opcode -/

theorem decodeFields_operation (m : OpcodeMap) (f : Fields) :
    (decodeFields m f).operation = m.operation f.opcode := by
  unfold decodeFields
  cases m.operation f.opcode <;> rfl

/-- A field read as a signed integer is in the field's range. -/
theorem decodeFields_wellFormed (m : OpcodeMap) (f : Fields) : (decodeFields m f).wellFormed = true := by
  unfold decodeFields
  cases m.operation f.opcode with
  | addi | subi | muli => exact immOk_sext4 f.op3
  | jmp | beqz => exact offOk_sext8 (offField f.op2 f.op3)
  | _ => rfl

theorem decodeWith_wellFormed (m : OpcodeMap) (w : Word) : (decodeWith m w).wellFormed = true :=
  decodeFields_wellFormed m (Fields.ofWord w)

/-- Settles O4: bits 15:12 are the opcode field, which alone selects the operation. -/
theorem everyWordDecodesByItsOpcode : Obligations.EveryWordDecodesByItsOpcode := by
  unfold Obligations.EveryWordDecodesByItsOpcode
  exact fun m w => ⟨decodeWith_wellFormed m w, decodeFields_operation m (Fields.ofWord w)⟩

/-! ## Unassigned opcodes in a step -/

theorem exec_of_isUnassigned {i : Instr} (h : i.isUnassigned = true) (s : State) : exec i s = .next s := by
  cases i with
  | unassigned4 | unassigned5 | unassigned9 | unassigned11 | unassigned15 => rfl
  | _ => cases h

theorem decodeFields_isUnassigned (m : OpcodeMap) {f : Fields}
    (h : f.opcode = 4 ∨ f.opcode = 5 ∨ f.opcode = 9 ∨ f.opcode = 11 ∨ f.opcode = 15) :
    (decodeFields m f).isUnassigned = true := by
  rw [← m.unassigned4_is, ← m.unassigned5_is, ← m.unassigned9_is, ← m.unassigned11_is, ← m.unassigned15_is] at h
  unfold decodeFields
  rcases h with h | h | h | h | h <;>
  · rw [h, m.operation_opcode]
    rfl

/-- A step whose fetch does not fault executes the word of the selected slot (spec/40_engine_cycle.md R71). -/
theorem stepUnder_of_no_fetch_fault (m : OpcodeMap) {p : OddPcPolicy} {s : State} (hr : s.run = .running)
    (hp : ¬ (p = .fault ∧ s.pc.toNat % 2 = 1)) :
    stepUnder m p s = exec (decodeWith m (s.instrAt (s.pc.toNat / 2))) { s with pc := s.pc + 2 } := by
  have hf : s.fetch p = .word (s.instrAt s.fetchSlot) s.advancePc := if_neg hp
  rw [stepUnder_of_word s hr hf, State.advancePc_eq]
  rfl

/-- Settles O27: the five values decode to the five instructions whose execute phase changes nothing. -/
theorem unassignedOpcodesAreSkipped : Obligations.UnassignedOpcodesAreSkipped := by
  unfold Obligations.UnassignedOpcodesAreSkipped
  constructor
  · intro m p s f hr hp hw hop
    rw [stepUnder_of_no_fetch_fault m hr hp, hw, decodeWith_toWord]
    exact exec_of_isUnassigned (decodeFields_isUnassigned m hop) _
  · rintro i s (rfl | rfl | rfl | rfl | rfl) <;> exact exec_of_isUnassigned rfl s

/-! ## Ignored fields -/

/-- The decoder does not see the fields an operation ignores: both sides encode to the same fields. -/
theorem decodeFields_usedOnly (m : OpcodeMap) (f : Fields) : decodeFields m (f.usedOnly m) = decodeFields m f := by
  rw [← encodeFields_decodeFields, decodeFields_encodeFields m (decodeFields_wellFormed m f)]

theorem decodeFields_eq_of_usedOnly_eq {m : OpcodeMap} {f g : Fields} (h : f.usedOnly m = g.usedOnly m) :
    decodeFields m f = decodeFields m g := by
  rw [← decodeFields_usedOnly, h, decodeFields_usedOnly]

/-- Settles O3: fields that differ only where the operation ignores them have the same used fields. -/
theorem ignoredFieldsHaveNoEffect : Obligations.IgnoredFieldsHaveNoEffect := by
  unfold Obligations.IgnoredFieldsHaveNoEffect
  intro m a b c a' b' c'
  constructor
  · apply decodeFields_eq_of_usedOnly_eq
    simp only [Fields.usedOnly, m.operation_opcode]
  · intro o ho
    apply decodeFields_eq_of_usedOnly_eq
    rcases ho with rfl | rfl | rfl | rfl | rfl | rfl <;> simp only [Fields.usedOnly, m.operation_opcode]

/-! ## Signed fields -/

/-- Settles O6: the three immediate forms read op3 by `sext4`. -/
theorem immediateIsSignedField : Obligations.ImmediateIsSignedField := by
  unfold Obligations.ImmediateIsSignedField
  intro m a b v imm himm
  obtain rfl : imm = sext4 v := himm.trans (sext4_eq v).symm
  obtain ⟨hlo, hhi⟩ := sext4_range v
  refine ⟨hlo, hhi, ?_, ?_, ?_⟩ <;> simp only [decodeFields, m.operation_opcode]

theorem toNat_append_eq_add {n k : Nat} (x : BitVec n) (y : BitVec k) : (x ++ y).toNat = x.toNat * 2 ^ k + y.toNat := by
  rw [BitVec.toNat_append, ← Nat.shiftLeft_add_eq_or_of_lt y.isLt, Nat.shiftLeft_eq]

/-- The low byte of a word is its branch field (decision D1, notes/assumptions/1.md). -/
theorem loByte_toWord (f : Fields) : loByte f.toWord = offField f.op2 f.op3 := by
  rw [loByte_eq_fields, Fields.ofWord_toWord, offField]

/-- Settles O7: both branch forms read the byte `op2 ‖ op3`, which is the word's low byte, by `sext8`. -/
theorem branchOffsetIsSignedField : Obligations.BranchOffsetIsSignedField := by
  unfold Obligations.BranchOffsetIsSignedField
  intro m t a b u off hu hoff
  obtain rfl : u = (offField a b).toNat := by
    rw [hu, offField, toNat_append_eq_add]
    omega
  obtain rfl : off = sext8 (offField a b) := hoff.trans (sext8_eq _).symm
  obtain ⟨hlo, hhi⟩ := sext8_range (offField a b)
  refine ⟨hlo, hhi, ?_, ?_, ?_⟩
  · simp only [decodeFields, m.operation_opcode]
  · simp only [decodeFields, m.operation_opcode]
  · rw [← loByte_toNat, loByte_toWord]

/-! ## The instruction constructor -/

theorem toNat_ofInt_nibble (z : Int) : ((BitVec.ofInt 4 z).toNat : Int) = z % 16 := by
  rw [BitVec.toNat_ofInt]
  exact Int.toNat_of_nonneg (Int.emod_nonneg z (by decide))

/-- The constructor reaches every word, by the integers its fields read as. -/
theorem instructionWord_fields (f : Fields) :
    instructionWord f.opcode.toInt f.op1.toInt f.op2.toInt f.op3.toInt = f.toWord := by
  simp only [instructionWord, BitVec.ofInt_toInt]

/-- Settles O8: the layout keeps the four fields, and `BitVec.ofInt` reduces each argument mod 16. -/
theorem instructionConstructorTruncates : Obligations.InstructionConstructorTruncates := by
  unfold Obligations.InstructionConstructorTruncates
  refine ⟨fun m o a b c => ?_, fun w => ?_⟩
  · refine ⟨?_, ?_, ?_, ?_, _, decodeWith_wellFormed m _, rfl⟩ <;>
      rw [instructionWord, Fields.ofWord_toWord, toNat_ofInt_nibble]
  · exact ⟨_, _, _, _, (instructionWord_fields (Fields.ofWord w)).trans (Fields.toWord_ofWord w)⟩

end Sys2Proof

namespace Sys2Proof.Machine

/-! ## The 10-bit address value -/

@[simp] theorem AddressRef.ofBits_toBits (a : AddressRef) : AddressRef.ofBits a.toBits = a := by
  rw [ofBits, toBits, BitVec.extractLsb'_append_eq_left, BitVec.extractLsb'_append_eq_right]

@[simp] theorem AddressRef.toBits_ofBits (v : BitVec 10) : (AddressRef.ofBits v).toBits = v :=
  BitVec.extractLsb'_append_extractLsb'

theorem AddressRef.toBits_toNat (a : AddressRef) : a.toBits.toNat = a.logical :=
  toNat_append_eq_add a.segment a.offset

/-- Settles O53: `toBits` appends the 9-bit offset to the flag, and `make` reduces the offset mod 512. -/
theorem addressValueIsSegmentAndOffset : Obligations.AddressValueIsSegmentAndOffset := by
  unfold Obligations.AddressValueIsSegmentAndOffset
  exact ⟨fun a => ⟨a.ofBits_toBits, a.toBits_toNat, a.toBits_toNat.symm⟩, AddressRef.toBits_ofBits,
    fun g off => ⟨rfl, mod512_toNat off⟩⟩

end Sys2Proof.Machine
end

section
/-! PROOFS. The family of spec/40_engine_cycle.md: when the engine has a step and what the step runs, the frame rule,
how a run ends, and runs without HLT or under a step budget. -/

namespace Sys2Proof.Machine

/-! ## When there is a step, and what it runs -/

/-- Settles O28: an even `pc` does not fault the fetch, and the decoder undoes the encoder. -/
theorem stepRunsDecodedInstruction : Obligations.StepRunsDecodedInstruction := by
  unfold Obligations.StepRunsDecodedInstruction
  intro s hr heven
  have hstep : step s = exec (decode (s.instrAt (s.pc.toNat / 2))) { s with pc := s.pc + 2 } :=
    stepUnder_of_no_fetch_fault opcodeMap hr (by omega)
  refine ⟨hstep, fun i hi hslot => ?_⟩
  have hdecode : decode (encode i) = i := decodeEncodeRoundTrip opcodeMap i hi
  rw [hstep, hslot, hdecode]

/-- In Running the fetch raises its fault or the execute phase answers, and both are a next state. -/
theorem stepUnder_next_of_running (m : OpcodeMap) (p : OddPcPolicy) {s : State} (hr : s.run = .running) :
    ∃ t, stepUnder m p s = .next t := by
  by_cases hp : p = .fault ∧ oddPc s.pc
  · exact ⟨_, stepUnder_of_raised s hr (if_pos hp)⟩
  · obtain ⟨t, ht, -⟩ := exec_cases { s with pc := s.pc + 2 } (decodeWith m (s.instrAt (s.pc.toNat / 2)))
    exact ⟨t, (stepUnder_of_no_fetch_fault m hr hp).trans ht⟩

theorem stepUnder_next_iff_running (m : OpcodeMap) (p : OddPcPolicy) (s : State) :
    (∃ t, stepUnder m p s = .next t) ↔ s.run = .running :=
  ⟨fun ⟨_, h⟩ => (stepUnder_next_cases s h).1, stepUnder_next_of_running m p⟩

/-- Settles O31: outside Running the step is `noStep`, which names the run-state. -/
theorem engineStepsExactlyWhileRunning : Obligations.EngineStepsExactlyWhileRunning := by
  unfold Obligations.EngineStepsExactlyWhileRunning
  intro m p s
  refine ⟨stepUnder_next_iff_running m p s, fun h => ?_, fun h => ?_, fun h => ?_⟩ <;>
  · rw [stepUnder_of_not_running s m p (by simp [h])]
    simp only [State.noStep, h]

/-! ## What the execute phase does to each piece of state -/

/-- HLT alone halts; every other instruction keeps the run-state and the fault record, or faults. -/
theorem ExecCase.hlt_or_keeps_control {i : Instr} {s t : State} (hc : ExecCase i s t) :
    i = .hlt ∧ t = s.setRun .halted ∨ i ≠ .hlt ∧ (SameControl s t ∨ t.run = .faulted) := by
  cases hc with
  | computed _ _ ha => exact .inr ⟨(by rintro rfl; cases ha), .inl ⟨rfl, rfl⟩⟩
  | loaded _ _ _ hi => exact .inr ⟨by simp [hi], .inl ⟨rfl, rfl⟩⟩
  | loadFaulted _ _ _ hi => exact .inr ⟨by simp [hi], .inr rfl⟩
  | stored _ _ _ hi => exact .inr ⟨by simp [hi], .inl ⟨rfl, rfl⟩⟩
  | storeFaulted _ _ _ hi => exact .inr ⟨by simp [hi], .inr rfl⟩
  | jumped _ hi => exact .inr ⟨by simp [hi], .inl ⟨rfl, rfl⟩⟩
  | taken _ _ hi => exact .inr ⟨by simp [hi], .inl ⟨rfl, rfl⟩⟩
  | notTaken _ _ hi => exact .inr ⟨by simp [hi], .inl ⟨rfl, rfl⟩⟩
  | halted hi => exact .inl ⟨hi, rfl⟩
  | skipped hu => exact .inr ⟨(by rintro rfl; cases hu), .inl ⟨rfl, rfl⟩⟩

theorem ExecCase.readReg_eq {i : Instr} {s t : State} (hc : ExecCase i s t) {r : Reg} (hr : i.dest ≠ some r) :
    t.readReg r = s.readReg r := by
  cases hc with
  | computed rd v _ hd => exact s.readReg_writeReg_other v fun e => hr (e ▸ hd)
  | loaded rd _ _ hi => exact s.readReg_writeReg_other _ fun e => hr (e ▸ hi ▸ rfl)
  | _ => rfl

/-- Only an SD changes data bytes, and only the two at its effective address. -/
theorem ExecCase.sameData_or_sd {i : Instr} {s t : State} (hc : ExecCase i s t) :
    SameData s t ∨ ∃ ra rb rv, i = .sd ra rb rv ∧ SameDataBut (s.effectiveAddress ra rb) s t := by
  cases hc with
  | stored ra rb rv hi =>
    refine .inr ⟨ra, rb, rv, hi, fun j hhi hlo => ?_⟩
    rw [State.dataByte_putDataWord, if_neg hlo, if_neg hhi]
  | _ => exact .inl fun _ => rfl

/-- Only a JMP and a taken BEQZ change `pc` in the execute phase. -/
theorem ExecCase.pc_eq_or_branch {i : Instr} {s t : State} (hc : ExecCase i s t) :
    t.pc = s.pc ∨ (∃ off, i = .jmp off) ∨ ∃ rt off, i = .beqz rt off ∧ s.readReg rt = 0 := by
  cases hc with
  | jumped off hi => exact .inr (.inl ⟨off, hi⟩)
  | taken rt off hi hz => exact .inr (.inr ⟨rt, off, hi, hz⟩)
  | _ => exact .inl rfl

/-! ## The frame rule -/

/-- A step whose fetch does not fault is a case of the execute phase on the state with `pc` advanced by 2. -/
theorem execCase_of_stepUnder {m : OpcodeMap} {p : OddPcPolicy} {s t : State} (h : stepUnder m p s = .next t)
    (hp : ¬ (p = .fault ∧ s.pc.toNat % 2 = 1)) :
    ExecCase (decodeWith m (s.instrAt (s.pc.toNat / 2))) { s with pc := s.pc + 2 } t := by
  rw [stepUnder_of_no_fetch_fault m (stepUnder_next_cases s h).1 hp] at h
  exact exec_next_cases _ h

/-- Settles O32, piece of state by piece of state. -/
theorem everyStepObeysTheFrameRule : Obligations.EveryStepObeysTheFrameRule := by
  unfold Obligations.EveryStepObeysTheFrameRule
  intro m p s t i h hp hi hok
  have hr := (stepUnder_next_cases s h).1
  have hc := execCase_of_stepUnder h hp
  rw [hi] at hc
  refine ⟨fun r => hc.readReg_eq, fun hsd => ?_, fun ra rb rv hsd => ?_, fun hb => ?_, fun rt off hb hz => ?_,
    and_assoc.mp ⟨?_, .of_imem_eq (stepUnder_imem_eq h)⟩⟩
  · obtain hsame | ⟨ra, rb, rv, hi', -⟩ := hc.sameData_or_sd
    · exact hsame
    · exact absurd hi' (hsd ra rb rv)
  · obtain hsame | ⟨_, _, _, hi', hbut⟩ := hc.sameData_or_sd
    · exact fun j _ _ => hsame j
    · cases hsd.symm.trans hi'
      exact hbut
  · obtain hpc | ⟨_, rfl⟩ | ⟨_, _, rfl, -⟩ := hc.pc_eq_or_branch
    · exact hpc
    · cases hb
    · cases hb
  · subst hb
    obtain hpc | ⟨_, hj⟩ | ⟨_, _, hb', hz'⟩ := hc.pc_eq_or_branch
    · exact hpc
    · cases hj
    · cases hb'
      exact absurd hz' hz
  · obtain ⟨hhlt, rfl⟩ | ⟨hhlt, ⟨hrun, hfault⟩ | hf⟩ := hc.hlt_or_keeps_control
    · exact ⟨(if_pos hhlt).symm, rfl⟩
    · exact ⟨hrun.trans (hr.trans (if_neg hhlt).symm), hfault⟩
    · exact absurd hf hok

/-! ## How a run ends -/

theorem operation_eq_hlt_iff (i : Instr) : i.operation = .hlt ↔ i = .hlt := by
  cases i <;> simp [Instr.operation]

/-- A step from `s` executes a HLT: the fetch does not fault, and the selected slot decodes to HLT. -/
def ExecutesHlt (m : OpcodeMap) (p : OddPcPolicy) (s : State) : Prop :=
  ¬ (p = .fault ∧ s.pc.toNat % 2 = 1) ∧ decodeWith m (s.instrAt (s.pc.toNat / 2)) = .hlt

/-- Whether a word is a HLT is a matter of its opcode alone (spec/30_encoding.md R58). -/
theorem executesHlt_iff_opcode (m : OpcodeMap) (p : OddPcPolicy) (s : State) :
    ExecutesHlt m p s ↔ ¬ (p = .fault ∧ s.pc.toNat % 2 = 1) ∧
      m.operation (Fields.ofWord (s.instrAt (s.pc.toNat / 2))).opcode = .hlt := by
  rw [ExecutesHlt, ← operation_eq_hlt_iff, decodeWith, decodeFields_operation]

/-- A step that executes a HLT halts; any other step leaves the run-state Running or Faulted. -/
theorem stepUnder_hlt_or_not {m : OpcodeMap} {p : OddPcPolicy} {s t : State} (h : stepUnder m p s = .next t) :
    ExecutesHlt m p s ∧ t = { s with pc := s.pc + 2, run := .halted } ∨
      ¬ ExecutesHlt m p s ∧ (t.run = .running ∨ t.run = .faulted) := by
  obtain ⟨hr, hc⟩ := stepUnder_next_cases s h
  cases hc with
  | fetchFaulted hp hodd => exact .inr ⟨fun hhlt => hhlt.1 ⟨hp, hodd⟩, .inr rfl⟩
  | executed hp _ =>
    obtain ⟨hi, ht⟩ | ⟨hi, ⟨hrun, -⟩ | hf⟩ := (execCase_of_stepUnder h hp).hlt_or_keeps_control
    · exact .inl ⟨⟨hp, hi⟩, ht⟩
    · exact .inr ⟨fun hhlt => hi hhlt.2, .inl (hrun.trans hr)⟩
    · exact .inr ⟨fun hhlt => hi hhlt.2, .inr hf⟩

/-- Settles O33: a step that does not halt leaves Running, where there is a next step, or Faulted. -/
theorem runEndsNormallyExactlyOnHlt : Obligations.RunEndsNormallyExactlyOnHlt := by
  unfold Obligations.RunEndsNormallyExactlyOnHlt
  intro m p s t h
  rw [← executesHlt_iff_opcode]
  obtain ⟨hhlt, rfl⟩ | ⟨hno, hrun⟩ := stepUnder_hlt_or_not h
  · refine ⟨⟨fun _ => hhlt, fun _ => rfl⟩, fun _ => ⟨rfl, fun _ => rfl, fun _ => rfl, fun _ => rfl, fun u hu => ?_⟩,
      fun hne => absurd rfl hne⟩
    cases (stepUnder_next_cases _ hu).1
  · have hne : t.run ≠ .halted := by
      obtain hrun | hrun := hrun <;> simp [hrun]
    exact ⟨⟨fun ht => absurd ht hne, fun hhlt => absurd hhlt hno⟩, fun ht => absurd ht hne,
      fun _ hok => stepUnder_next_of_running m p (hrun.resolve_right hok)⟩

/-! ## Runs without HLT -/

/-- No slot of instruction memory holds a HLT. -/
def HltFree (s : State) : Prop := ∀ slot, slot < 256 → decode (s.instrAt slot) ≠ .hlt

theorem step_of_hltFree {s : State} (hr : s.run = .running) (hfree : HltFree s) :
    ∃ t, step s = .next t ∧ HltFree t ∧ (t.run = .running ∨ t.run = .faulted) := by
  obtain ⟨t, ht⟩ := stepUnder_next_of_running opcodeMap oddPcPolicy hr
  have hsame : SameInstrs s t := .of_imem_eq (stepUnder_imem_eq ht)
  refine ⟨t, ht, fun slot hlt => hsame slot ▸ hfree slot hlt, ?_⟩
  obtain ⟨⟨-, hhlt⟩, -⟩ | ⟨-, hrun⟩ := stepUnder_hlt_or_not ht
  · exact absurd hhlt (hfree _ s.fetchSlot_lt)
  · exact hrun

/-- Settles O41, by induction on the number of steps: every step keeps instruction memory free of HLT and leaves
Running only for Faulted. -/
theorem withoutHltTheRunNeverHalts : Obligations.WithoutHltTheRunNeverHalts := by
  unfold Obligations.WithoutHltTheRunNeverHalts
  intro s hr hfree k
  induction k generalizing s with
  | zero => exact .inl ⟨s, run_zero_iff.mpr rfl, hr⟩
  | succ k ih =>
    obtain ⟨u, hu, hfree', hrun | hfault⟩ := step_of_hltFree hr hfree
    · obtain ⟨t, ht, hrun'⟩ | ⟨j, t, hj, ht, hfault⟩ := ih u hrun hfree'
      · exact .inl ⟨t, run_succ_iff.mpr ⟨u, hu, ht⟩, hrun'⟩
      · exact .inr ⟨j + 1, t, by omega, run_succ_iff.mpr ⟨u, hu, ht⟩, hfault⟩
    · exact .inr ⟨1, u, by omega, run_succ_iff.mpr ⟨u, hu, run_zero_iff.mpr rfl⟩, hfault⟩

/-! ## Runs under a step budget -/

theorem runFor_zero_of_running {s : State} (hr : s.run = .running) : runFor 0 s = .outOfBudget s := by
  rw [runFor, hr]

theorem runFor_succ_of_step {s u : State} (hr : s.run = .running) (hu : step s = .next u) (n : Nat) :
    runFor (n + 1) s = runFor n u := by
  rw [runFor, hr]
  simp only [hu]

/-- Outside Running a bounded run ends at once, and it is reported halted in Halted alone. -/
theorem runFor_halted_iff_of_not_running (n : Nat) {s : State} (hr : s.run ≠ .running) (t : State) :
    runFor n s = .halted t ↔ t = s ∧ s.run = .halted := by
  unfold runFor
  cases h : s.run with
  | running => exact absurd h hr
  | halted => simp [eq_comm]
  | load => simp
  | faulted => simp

theorem runFor_ne_outOfBudget_of_not_running (n : Nat) {s : State} (hr : s.run ≠ .running) (t : State) :
    runFor n s ≠ .outOfBudget t := by
  unfold runFor
  cases h : s.run with
  | running => exact absurd h hr
  | _ => simp

theorem run_succ_iff_of_step {s t u : State} (hu : step s = .next u) (k : Nat) :
    Host.Core.run Sys2Proof.core (k + 1) s = .next t ↔ Host.Core.run Sys2Proof.core k u = .next t := by
  simp [run_succ_iff, hu]

/-- Outside Running the unbounded run has no step. -/
theorem run_iff_of_not_running {k : Nat} {s t : State} (hr : s.run ≠ .running) :
    Host.Core.run Sys2Proof.core k s = .next t ↔ k = 0 ∧ t = s := by
  cases k with
  | zero => simp [run_zero_iff]
  | succ k =>
    have hno : ∀ u, step s ≠ .next u := fun u hu => hr (stepUnder_next_cases s hu).1
    simp [run_succ_iff, hno]

/-- A bounded run reports halted exactly when the unbounded one halts within the budget. -/
theorem runFor_halted_iff (n : Nat) (s t : State) :
    runFor n s = .halted t ↔ ∃ k, k ≤ n ∧ Host.Core.run Sys2Proof.core k s = .next t ∧ t.run = .halted := by
  by_cases hr : s.run = .running
  · have hstart : ¬ (Host.Core.run Sys2Proof.core 0 s = .next t ∧ t.run = .halted) := by
      rintro ⟨h, ht⟩
      rw [run_zero_iff.mp h, hr] at ht
      cases ht
    match n with
    | 0 => simpa [runFor_zero_of_running hr] using hstart
    | n + 1 =>
      obtain ⟨u, hu⟩ := stepUnder_next_of_running opcodeMap oddPcPolicy hr
      rw [runFor_succ_of_step hr hu, runFor_halted_iff n u t]
      constructor
      · rintro ⟨k, hk, hrun, ht⟩
        exact ⟨k + 1, by omega, (run_succ_iff_of_step hu k).mpr hrun, ht⟩
      · rintro ⟨_ | k, hk, hrun, ht⟩
        · exact absurd ⟨hrun, ht⟩ hstart
        · exact ⟨k, by omega, (run_succ_iff_of_step hu k).mp hrun, ht⟩
  · rw [runFor_halted_iff_of_not_running n hr]
    simp only [run_iff_of_not_running hr]
    constructor
    · rintro ⟨rfl, ht⟩
      exact ⟨0, n.zero_le, ⟨rfl, rfl⟩, ht⟩
    · rintro ⟨_, _, ⟨_, rfl⟩, ht⟩
      exact ⟨rfl, ht⟩

/-- A bounded run uses its budget up exactly when the unbounded one is still running after that many steps. -/
theorem runFor_outOfBudget_iff (n : Nat) (s t : State) :
    runFor n s = .outOfBudget t ↔ Host.Core.run Sys2Proof.core n s = .next t ∧ t.run = .running := by
  by_cases hr : s.run = .running
  · match n with
    | 0 =>
      rw [runFor_zero_of_running hr, run_zero_iff]
      constructor
      · rintro ⟨⟩
        exact ⟨rfl, hr⟩
      · rintro ⟨rfl, -⟩
        rfl
    | n + 1 =>
      obtain ⟨u, hu⟩ := stepUnder_next_of_running opcodeMap oddPcPolicy hr
      rw [runFor_succ_of_step hr hu, run_succ_iff_of_step hu, runFor_outOfBudget_iff n u t]
  · rw [run_iff_of_not_running hr]
    refine ⟨fun h => absurd h (runFor_ne_outOfBudget_of_not_running n hr t), ?_⟩
    rintro ⟨⟨-, rfl⟩, ht⟩
    exact absurd ht hr

/-- Settles O43: by recursion on the budget, the two runs take the same steps until one leaves Running. -/
theorem budgetNeverReportsAFalseHalt : Obligations.BudgetNeverReportsAFalseHalt := by
  unfold Obligations.BudgetNeverReportsAFalseHalt
  exact fun n s t _ => ⟨runFor_halted_iff n s t, runFor_outOfBudget_iff n s t⟩

end Sys2Proof.Machine
end

section
/-! PROOFS. The family of spec/41_arithmetic.md: the six arithmetic instructions write the exact integer reduced to 16
bits and nothing else, and the signed and the unsigned reading of the registers give the same low 16 bits. -/

namespace Sys2Proof.Machine

/-! ## What the six have in common -/

theorem State.onlyReg_writeReg (s : State) (rd : Reg) (v : Word) : OnlyReg rd s (s.writeReg rd v) :=
  ⟨fun _ h => s.readReg_writeReg_other v h, s.writeReg_pc rd v, ⟨s.writeReg_run rd v, s.writeReg_fault rd v⟩,
    s.instrAt_writeReg rd v, s.dataByte_writeReg rd v⟩

/-- An instruction that computes an integer hands it to the shared ending `finishArith` (spec/41_arithmetic.md R80). -/
theorem exec_eq_finishArith {i : Instr} {s : State} {rd : Reg} {z : Int} (hd : i.dest = some rd)
    (hz : exactResultOf s i = some z) : exec i s = s.finishArith rd z := by
  cases i with
  | add | addi | sub | subi | mul | muli =>
    cases hd
    cases hz
    rfl
  | _ => cases hz

/-- An instruction that computes an integer completes, and writes that integer mod 65536 and nothing else
(spec/41_arithmetic.md R80). -/
theorem exec_writes_exactResult {i : Instr} {s : State} {rd : Reg} {z : Int} (hd : i.dest = some rd)
    (hz : exactResultOf s i = some z) :
    ∃ t, exec i s = .next t ∧ ((t.readReg rd).toNat : Int) = z % 65536 ∧ OnlyReg rd s t := by
  refine ⟨_, exec_eq_finishArith hd hz, ?_, s.onlyReg_writeReg rd (trunc16 z)⟩
  rw [State.readReg_writeReg_same, trunc16_toNat]

/-! ## The step of an arithmetic instruction -/

theorem dest_and_exactResultOf_of_isArithmetic {i : Instr} (h : i.isArithmetic = true) (s : State) :
    ∃ rd z, i.dest = some rd ∧ exactResultOf s i = some z := by
  cases i with
  | add | addi | sub | subi | mul | muli => exact ⟨_, _, rfl, rfl⟩
  | _ => cases h

/-- The exact integer is computed from registers alone, which the fetch does not touch. -/
theorem exactResultOf_advancePc (s : State) (i : Instr) : exactResultOf s.advancePc i = exactResultOf s i := by
  cases i <;> rfl

/-- Settles O15: the fetch advances `pc` alone, and the execute phase writes the destination alone. -/
theorem arithmeticStepNeverFaults : Obligations.ArithmeticStepNeverFaults := by
  unfold Obligations.ArithmeticStepNeverFaults
  intro m p s i hr hp hi harith
  obtain ⟨rd, z, hd, hz⟩ := dest_and_exactResultOf_of_isArithmetic harith s
  have hstep : stepUnder m p s = exec i s.advancePc := by
    rw [stepUnder_of_no_fetch_fault m hr hp, hi, State.advancePc_eq]
  obtain ⟨t, ht, hval, hregs, hpc, hctl, hinstrs, hdata⟩ :=
    exec_writes_exactResult hd ((exactResultOf_advancePc s i).trans hz)
  refine ⟨rd, z, t, hd, hz, hstep.trans ht, hval, ?_, hregs, hctl, hinstrs, hdata⟩
  rw [hpc, State.advancePc_pc, mod512_toNat]

/-! ## The unsigned reading -/

/-- The signed and the unsigned reading of a register differ by 0 or by 65536 (spec/00_scope.md R7). -/
theorem toInt_modEq_toNat (w : Word) : w.toInt ≡ w.toNat [ZMOD 65536] := by
  rw [BitVec.toInt_eq_toNat_bmod]
  exact Int.bmod_emod

/-- A reading that is congruent to the exact integer gives the same low 16 bits (spec/41_arithmetic.md R87). -/
theorem exec_writes_of_modEq {i : Instr} {s : State} {rd : Reg} {z z' : Int} (hd : i.dest = some rd)
    (hz : exactResultOf s i = some z) (h : z ≡ z' [ZMOD 65536]) :
    ∃ t, exec i s = .next t ∧ ((t.readReg rd).toNat : Int) = z' % 65536 := by
  obtain ⟨t, ht, hval, -⟩ := exec_writes_exactResult hd hz
  exact ⟨t, ht, hval.trans h⟩

/-- Settles O16: congruence mod 65536 passes through sum, difference and product. -/
theorem unsignedReadingGivesSameResult : Obligations.UnsignedReadingGivesSameResult := by
  unfold Obligations.UnsignedReadingGivesSameResult
  intro rd rs1 rs2 s
  have h1 := toInt_modEq_toNat (s.readReg rs1)
  have h2 := toInt_modEq_toNat (s.readReg rs2)
  exact ⟨exec_writes_of_modEq rfl rfl (h1.add h2), exec_writes_of_modEq rfl rfl (h1.sub h2),
    exec_writes_of_modEq rfl rfl (h1.mul h2)⟩

/-! ## Each of the six: its word, its result and its frame -/

/-- A word written as four fields side by side is decoded by these fields (decision D1, notes/assumptions/1.md). -/
theorem decode_append (op a b c : Nibble) : decode (op ++ a ++ b ++ c) = decodeFields opcodeMap ⟨op, a, b, c⟩ :=
  decodeWith_toWord opcodeMap ⟨op, a, b, c⟩

/-- Settles O9: opcode 0 selects ADD, whose exact integer is the sum. -/
theorem addWritesWrappedSum : Obligations.AddWritesWrappedSum := by
  unfold Obligations.AddWritesWrappedSum
  exact ⟨decode_append 0x0#4, fun _ _ _ _ => exec_writes_exactResult rfl rfl⟩

/-- Settles O10: opcode 1 selects ADDI, whose exact integer is the sum with the immediate. -/
theorem addiWritesWrappedSum : Obligations.AddiWritesWrappedSum := by
  unfold Obligations.AddiWritesWrappedSum
  exact ⟨decode_append 0x1#4, fun _ _ _ _ => exec_writes_exactResult rfl rfl⟩

/-- Settles O11: opcode 2 selects SUB, whose exact integer is `x[rs1]` less `x[rs2]`. -/
theorem subWritesWrappedDifference : Obligations.SubWritesWrappedDifference := by
  unfold Obligations.SubWritesWrappedDifference
  exact ⟨decode_append 0x2#4, fun _ _ _ _ => exec_writes_exactResult rfl rfl⟩

/-- Settles O12: opcode 3 selects SUBI, whose exact integer is the register less the immediate. -/
theorem subiWritesWrappedDifference : Obligations.SubiWritesWrappedDifference := by
  unfold Obligations.SubiWritesWrappedDifference
  exact ⟨decode_append 0x3#4, fun _ _ _ _ => exec_writes_exactResult rfl rfl⟩

/-- Settles O13: opcode 6 selects MUL, whose exact integer is the product. -/
theorem mulWritesLowProduct : Obligations.MulWritesLowProduct := by
  unfold Obligations.MulWritesLowProduct
  exact ⟨decode_append 0x6#4, fun _ _ _ _ => exec_writes_exactResult rfl rfl⟩

/-- Settles O14: opcode 7 selects MULI, whose exact integer is the product with the immediate. -/
theorem muliWritesLowProduct : Obligations.MuliWritesLowProduct := by
  unfold Obligations.MuliWritesLowProduct
  exact ⟨decode_append 0x7#4, fun _ _ _ _ => exec_writes_exactResult rfl rfl⟩

end Sys2Proof.Machine
end

section
/-! PROOFS. The family of spec/42_load_store.md: what LD and SD do in range, and a value stored and loaded again. -/

namespace Sys2Proof.Machine

/-! ## The two bytes of an access in range -/

theorem toNat_eq_dataBase_add_dataLoc {ea : Int} (h : inDataRange ea) : ea.toNat = 512 + dataLoc ea := by
  obtain ⟨hlo, -⟩ := h
  simp only [dataLoc, Config.dataBase]
  omega

theorem toNat_sub_512_eq_dataLoc (ea : Int) : (ea - 512).toNat = dataLoc ea := rfl

theorem toNat_sub_511_eq_dataLoc_add_one {ea : Int} (h : inDataRange ea) : (ea - 511).toNat = dataLoc ea + 1 := by
  obtain ⟨hlo, -⟩ := h
  simp only [dataLoc, Config.dataBase]
  omega

/-- A data word reads unsigned as 256 times its byte at the lower address plus the next byte
(spec/20_memory.md R34). -/
theorem State.dataWord_toNat (s : State) (j : Nat) :
    (s.dataWord j).toNat = 256 * (s.dataByte j).toNat + (s.dataByte (j + 1)).toNat :=
  ofBytes_toNat _ _

/-! ## What a store leaves unchanged -/

theorem State.onlyDataWord_putDataWord (s : State) (ea : Int) (v : Word) :
    OnlyDataWord ea s (s.putDataWord (dataLoc ea) v) := by
  refine ⟨s.readReg_putDataWord _ v, s.putDataWord_pc _ v, ⟨s.putDataWord_run _ v, s.putDataWord_fault _ v⟩,
    s.instrAt_putDataWord _ v, fun j hhi hlo => ?_⟩
  rw [State.dataByte_putDataWord, if_neg hlo, if_neg hhi]

/-- A byte below 512 belongs to a slot, and one above is the data byte of its array index (spec/20_memory.md R36). -/
theorem OnlyDataWord.byteView_eq {ea : Int} {s t : State} (h : OnlyDataWord ea s t) (hin : inDataRange ea) {a : Nat}
    (hhi : (a : Int) ≠ ea) (hlo : (a : Int) ≠ ea + 1) : t.byteView a = s.byteView a := by
  obtain ⟨-, -, -, hinstrs, hdata⟩ := h
  by_cases ha : a < 512
  · simp only [State.byteView, if_pos ha, hinstrs (a / 2)]
  · obtain ⟨j, rfl⟩ := Nat.exists_eq_add_of_le (not_lt.mp ha)
    have hea := toNat_eq_dataBase_add_dataLoc hin
    rw [State.byteView_data, State.byteView_data]
    exact hdata j (by omega) (by omega)

/-! ## LD and SD in range -/

/-- Settles O17: in range LD writes the data word at the effective address to its destination. -/
theorem loadReadsBigEndianPair : Obligations.LoadReadsBigEndianPair := by
  unfold Obligations.LoadReadsBigEndianPair
  refine ⟨decode_append 0x8#4, ?_⟩
  intro rd ra rb s ea hea hlo hhi
  obtain rfl : ea = s.effectiveAddress ra rb := hea
  have hin : inDataRange (s.effectiveAddress ra rb) := ⟨hlo, hhi⟩
  refine ⟨_, execLd_of_inRange s rd ra rb hin, ?_, s.onlyReg_writeReg rd _⟩
  rw [State.readReg_writeReg_same, State.dataWord_toNat, toNat_sub_512_eq_dataLoc,
    toNat_sub_511_eq_dataLoc_add_one hin]

/-- Settles O18: in range SD writes the register's two bytes at the effective address, and the byte view of every
other address follows from this frame. -/
theorem storeWritesBigEndianPair : Obligations.StoreWritesBigEndianPair := by
  unfold Obligations.StoreWritesBigEndianPair
  refine ⟨decode_append 0xA#4, ?_⟩
  intro ra rb rv s ea hea hlo hhi
  obtain rfl : ea = s.effectiveAddress ra rb := hea
  have hin : inDataRange (s.effectiveAddress ra rb) := ⟨hlo, hhi⟩
  have hframe := s.onlyDataWord_putDataWord (s.effectiveAddress ra rb) (s.readReg rv)
  refine ⟨_, execSd_of_inRange s ra rb rv hin, ?_, ?_, hframe, fun a => hframe.byteView_eq hin⟩
  · rw [toNat_sub_512_eq_dataLoc, State.dataByte_putDataWord_hi, hiByte_toNat]
  · rw [toNat_sub_511_eq_dataLoc_add_one hin, State.dataByte_putDataWord_lo, loByte_toNat]

/-- Settles O20: the store puts the value's word at the address, its bytes are what the byte view shows there, and a
load from the same data memory reads the word back. -/
theorem storeThenLoadRoundTrip : Obligations.StoreThenLoadRoundTrip := by
  unfold Obligations.StoreThenLoadRoundTrip
  rintro ra rb rv s t _ rfl hin ht
  obtain rfl := exec_sd_next_eq hin ht
  rw [toNat_eq_dataBase_add_dataLoc hin, Nat.add_assoc, State.byteView_data, State.byteView_data]
  refine ⟨s.dataByte_putDataWord_hi _ _, s.dataByte_putDataWord_lo _ _, fun rd la lb u hsame hea => ?_⟩
  obtain ⟨v, hv, hval⟩ := exec_ld_reads_dataWord rd hea hin
  exact ⟨v, hv, by rw [hval, hsame.dataWord_eq, State.dataWord_putDataWord_same]⟩

end Sys2Proof.Machine
end

section
/-! PROOFS. The family of spec/43_control_flow.md: where a taken branch goes, JMP, BEQZ and HLT with their words and
frames, and the jump to itself. -/

namespace Sys2Proof.Machine

/-! ## The jump to itself -/

/-- A branch with offset 0 goes to the address of the instruction in execution (spec/43_control_flow.md R100). -/
theorem State.branchTarget_zero (s : State) : s.branchTarget 0 = s.currentAddr := by
  rw [State.branchTarget, State.currentAddr, add_zero]

/-- The jump undoes the fetch's advance of `pc`, and neither touches anything else. -/
theorem step_of_jmp_zero {s : State} (hr : s.run = .running) (heven : s.pc.toNat % 2 = 0)
    (hjmp : decode (s.instrAt (s.pc.toNat / 2)) = .jmp 0) : step s = .next s := by
  have hback : s.advancePc.branchTarget 0 = s.pc := by
    rw [State.branchTarget_zero, State.currentAddr_advancePc]
  calc step s = exec (.jmp 0) s.advancePc := by
        rw [(stepRunsDecodedInstruction s hr heven).1, hjmp, State.advancePc_eq]
    _ = .next (s.advancePc.setPc (s.advancePc.branchTarget 0)) := rfl
    _ = .next (s.advancePc.setPc s.pc) := by rw [hback]
    _ = .next s := rfl

/-- From a state that steps to itself every run ends where it began. -/
theorem run_of_step_self {s : State} (h : step s = .next s) (k : Nat) :
    Host.Core.run Sys2Proof.core k s = .next s := by
  induction k with
  | zero => exact run_zero_iff.mpr rfl
  | succ k ih => exact run_succ_iff.mpr ⟨s, h, ih⟩

/-- Settles O42: one step leads back to the same state, so any number of steps does. -/
theorem jumpToItselfRunsForever : Obligations.JumpToItselfRunsForever := by
  unfold Obligations.JumpToItselfRunsForever
  exact fun _ hr heven hjmp => run_of_step_self (step_of_jmp_zero hr heven hjmp)

/-! ## Branches -/

theorem State.branchTarget_toNat (s : State) (off : Int) :
    ((s.branchTarget off).toNat : Int) = ((s.pc.toNat : Int) + off - 2) % 512 :=
  mod512_toNat _

theorem OnlyPc.refl (s : State) : OnlyPc s s :=
  ⟨fun _ => rfl, ⟨rfl, rfl⟩, fun _ => rfl, fun _ => rfl⟩

theorem State.onlyPc_setPc (s : State) (a : CodeAddr) : OnlyPc s (s.setPc a) :=
  ⟨s.readReg_setPc a, ⟨s.setPc_run a, s.setPc_fault a⟩, s.instrAt_setPc a, s.dataByte_setPc a⟩

/-- Settles O24: JMP writes the branch target alone, and the 2 that the fetch has added to the instruction's own
address is taken off again, mod 512. -/
theorem jmpGoesToOwnAddressPlusOffset : Obligations.JmpGoesToOwnAddressPlusOffset := by
  unfold Obligations.JmpGoesToOwnAddressPlusOffset
  refine ⟨decode_append 0xC#4, fun off s => ?_⟩
  have htarget := s.branchTarget_toNat off
  refine ⟨s.setPc (s.branchTarget off), rfl, s.onlyPc_setPc _, htarget, fun a ha => ?_⟩
  rw [State.setPc_pc, htarget, ha]
  omega

/-- Settles O25: on zero BEQZ writes the branch target alone, and otherwise it changes nothing. -/
theorem beqzBranchesExactlyOnZero : Obligations.BeqzBranchesExactlyOnZero := by
  unfold Obligations.BeqzBranchesExactlyOnZero
  refine ⟨decode_append 0xD#4, fun rt off s => ?_⟩
  by_cases hz : s.readReg rt = 0
  · exact ⟨_, execBeqz_of_zero s rt off hz, s.onlyPc_setPc _, fun _ => s.branchTarget_toNat off,
      fun hnz => absurd hz hnz⟩
  · exact ⟨s, execBeqz_of_nonzero s rt off hz, .refl s, fun hz' => absurd hz' hz, fun _ => rfl⟩

/-! ## HLT -/

theorem State.onlyControl_setRun (s : State) (q : RunState) : OnlyControl s (s.setRun q) :=
  ⟨s.readReg_setRun q, s.setRun_pc q, s.instrAt_setRun q, s.dataByte_setRun q⟩

/-- Settles O26: HLT writes the run-state alone. -/
theorem hltHalts : Obligations.HltHalts := by
  unfold Obligations.HltHalts
  exact ⟨decode_append 0xE#4, fun s => ⟨s.setRun .halted, rfl, rfl, rfl, s.onlyControl_setRun .halted⟩⟩

end Sys2Proof.Machine
end

section
/-! PROOFS. The family of spec/60_exceptions.md: the odd fetch, and exactly when a step faults. -/

namespace Sys2Proof.Machine

/-! ## The odd fetch -/

/-- At an odd `pc` the step is the fault's one transition, under every OPCODE_MAP (spec/60_exceptions.md R113). -/
theorem stepUnder_fault_of_odd (m : OpcodeMap) {s : State} (hr : s.run = .running) (hodd : oddPc s.pc) :
    stepUnder m .fault s = .next (s.raise (.misalignedFetch s.pc)) :=
  stepUnder_of_raised s hr (s.fetch_fault_of_odd hodd)

/-- Settles O29: the fetch raises the fault, which writes the record and the run-state alone. -/
theorem oddFetchTakesFault : Obligations.OddFetchTakesFault := by
  unfold Obligations.OddFetchTakesFault
  intro m s hr hodd
  exact ⟨_, stepUnder_fault_of_odd m hr hodd, stepUnder_fault_of_odd opcodeMap hr hodd, rfl, rfl,
    s.onlyControl_raise _⟩

/-! ## Exactly when a step faults -/

/-- The execute phase faults only in an LD or SD out of range, where it raises AddressRangeFault
(spec/60_exceptions.md R111, R112). -/
theorem ExecCase.access_of_faulted {i : Instr} {s t : State} (hc : ExecCase i s t) (hs : s.run ≠ .faulted)
    (ht : t.run = .faulted) :
    ∃ ra rb, ((∃ rd, i = .ld rd ra rb) ∨ ∃ rv, i = .sd ra rb rv) ∧ ¬ inDataRange (s.effectiveAddress ra rb) ∧
      t = s.raiseAddressRange (s.effectiveAddress ra rb) := by
  cases hc with
  | loadFaulted rd ra rb hi hout => exact ⟨ra, rb, .inl ⟨rd, hi⟩, hout, rfl⟩
  | storeFaulted ra rb rv hi hout => exact ⟨ra, rb, .inr ⟨rv, hi⟩, hout, rfl⟩
  | halted => cases ht
  | _ => exact absurd ht hs

/-- Settles O34: a fetch that faults is the odd one, and after any other fetch the step faults exactly where the
execute phase does, on the state with `pc` advanced. -/
theorem stepFaultsExactlyWhenTheRulesSay : Obligations.StepFaultsExactlyWhenTheRulesSay := by
  unfold Obligations.StepFaultsExactlyWhenTheRulesSay
  rintro m p s t i h rfl
  obtain ⟨hr, hc⟩ := stepUnder_next_cases s h
  cases hc with
  | fetchFaulted hp hodd =>
    obtain ⟨hregs, hpc, hinstrs, hdata⟩ := s.onlyControl_raise (.misalignedFetch s.pc)
    exact ⟨⟨fun _ => .inl ⟨hp, hodd⟩, fun _ => rfl⟩,
      fun _ => ⟨hregs, hdata, hinstrs, .inl ⟨hp, hodd, rfl, hpc⟩⟩⟩
  | executed hp hexec =>
    have hfaulted := hexec.access_of_faulted (by simp [hr])
    constructor
    · constructor
      · intro ht
        obtain ⟨ra, rb, hi, hout, -⟩ := hfaulted ht
        exact .inr ⟨ra, rb, hi, hout⟩
      · rintro (hfetch | ⟨ra, rb, hi, hout⟩)
        · exact absurd hfetch hp
        · rw [stepUnder_of_no_fetch_fault m hr hp,
            exec_access_of_outOfRange (s := { s with pc := s.pc + 2 }) hi hout] at h
          cases h
          rfl
    · intro ht
      obtain ⟨ra, rb, hi, -, rfl⟩ := hfaulted ht
      obtain ⟨hregs, hpc, hinstrs, hdata⟩ := s.advancePc.onlyControl_raise
        (.addressRange s.advancePc.currentAddr (s.effectiveAddress ra rb))
      refine ⟨hregs, hdata, hinstrs, .inr ⟨hp, hpc.trans (congrArg State.pc s.advancePc_eq), ra, rb, hi, ?_⟩⟩
      rw [State.raiseAddressRange_fault, State.currentAddr_advancePc]
      rfl

end Sys2Proof.Machine
end

section
/-! PROOFS. The family of spec/70_reset_and_hazards.md: what each host move and each read answers, the transitions of
the run-state, and the invariant along every sequence of events. -/

namespace Sys2Proof.Machine

/-! ## Outside Load -/

/-- The guard of every host write, and no branch of the write itself, asks for Load (R143). -/
theorem hostApply_of_not_load {op : HostOp} {s : State} (hl : s.run ≠ .load) (hop : op ≠ .reset) :
    hostApply op s = ⟨s, .refused⟩ := by
  cases op with
  | reset => exact absurd rfl hop
  | loadInstr => exact s.whenLoading_of_not_load _ hl
  | storeData => exact s.whenLoading_of_not_load _ hl
  | setReg => exact s.whenLoading_of_not_load _ hl
  | start => exact s.whenLoading_of_not_load _ hl

/-! ## The transitions of the run-state -/

theorem hostApply_start_of_load {s : State} (hl : s.run = .load) : hostApply .start s = ⟨s.setRun .running, .ok⟩ :=
  s.whenLoading_of_load _ hl

theorem State.whenLoading_keeps_run {s : State} {r : HostResult} (h : r.state.run = s.run) :
    (s.whenLoading r).state.run = s.run := by
  unfold State.whenLoading
  split
  · exact h
  · rfl

theorem hostApply_keeps_run {op : HostOp} (s : State) (hreset : op ≠ .reset) (hstart : op ≠ .start) :
    (hostApply op s).state.run = s.run := by
  cases op with
  | reset => exact absurd rfl hreset
  | loadInstr => exact State.whenLoading_keeps_run (by split <;> rfl)
  | storeData => exact State.whenLoading_keeps_run (by split <;> rfl)
  | setReg => exact State.whenLoading_keeps_run (by split <;> rfl)
  | start => exact absurd rfl hstart

theorem stepUnder_run {m : OpcodeMap} {p : OddPcPolicy} {s t : State} (h : stepUnder m p s = .next t) :
    t.run = .running ∨ t.run = .halted ∨ t.run = .faulted := by
  obtain ⟨-, rfl⟩ | ⟨-, hrun | hrun⟩ := stepUnder_hlt_or_not h
  · exact .inr (.inl rfl)
  · exact .inl hrun
  · exact .inr (.inr hrun)

/-- Settles O35: reset and Start set the run-state they lead to, the other host moves keep it, a step leaves one of
three, and after the end of a run there is no step and every host move but reset is refused. -/
theorem runStateTransitionsAreTheListedOnes : Obligations.RunStateTransitionsAreTheListedOnes := by
  unfold Obligations.RunStateTransitionsAreTheListedOnes
  intro m p e s t h
  cases e with
  | engine =>
    have hr : s.run = .running := (stepUnder_next_cases s h).1
    exact ⟨nofun, nofun, nofun, fun _ => ⟨hr, stepUnder_run h⟩, by simp [hr]⟩
  | host op =>
    obtain rfl : t = (hostApply op s).state := h
    have hrefused (hl : s.run ≠ .load) (hop : op ≠ .reset) : (hostApply op s).state = s :=
      congrArg HostResult.state (hostApply_of_not_load hl hop)
    refine ⟨?_, ?_, ?_, nofun, fun hend => ?_⟩
    · rintro ⟨⟩
      rfl
    · rintro ⟨⟩
      exact ⟨fun hl => by rw [hostApply_start_of_load hl, State.setRun_run], fun hl => hrefused hl nofun⟩
    · rintro _ ⟨⟩ hreset hstart
      exact hostApply_keeps_run s hreset hstart
    · have hl : s.run ≠ .load := fun hl => by simp [hl] at hend
      by_cases hop : op = .reset
      · exact .inl (congrArg Event.host hop)
      · exact .inr (hrefused hl hop)

/-! ## The invariant under host moves -/

theorem Inv.putInstr {s : State} (h : Inv s) {slot : Nat} (hslot : slot < Config.imemSlots) (w : Word) :
    Inv (s.putInstr slot w) :=
  ⟨Memory.write_wf _ h.imem_wf w hslot, h.dmem_wf, h.fault_iff, h.record_truthful, h.load_pc⟩

theorem HostCase.keeps_inv {s t : State} (hc : HostCase s t) (h : Inv s) : Inv t := by
  cases hc with
  | reset => exact invariantHoldsAtReset
  | unchanged => exact h
  | loaded slot w _ hslot => exact h.putInstr hslot w
  | stored j v _ hj => exact h.putDataWord hj v
  | wrote r v => exact h.writeReg r v
  | started hl => exact h.setRun (h.fault_eq_none (by simp [hl])) (by decide) (by simp)

/-- Settles O38: each update a host move can make keeps the invariant. -/
theorem everyHostMoveKeepsTheInvariant : Obligations.EveryHostMoveKeepsTheInvariant := by
  unfold Obligations.EveryHostMoveKeepsTheInvariant
  exact fun op s h => (hostApply_cases s op).keeps_inv h

theorem Reachable.inv {m : OpcodeMap} {p : OddPcPolicy} {s : State} (h : Reachable m p s) : Inv s := by
  induction h with
  | reset => exact invariantHoldsAtReset
  | event e _ htrans ih =>
    cases e with
    | host op => exact htrans ▸ (hostApply_cases _ op).keeps_inv ih
    | engine => exact stepUnder_keeps_inv ih htrans

/-- Settles O39, by induction on the events; what holds in Load is part of the invariant. -/
theorem reachableStatesMeetTheInvariant : Obligations.ReachableStatesMeetTheInvariant := by
  unfold Obligations.ReachableStatesMeetTheInvariant
  intro m p s hreach
  have h := hreach.inv
  exact ⟨h, fun hl => ⟨h.load_pc hl, h.fault_eq_none (by simp [hl])⟩⟩

/-! ## Start -/

/-- Settles O49: Start leaves `pc` at 0, where the fetch selects slot 0 and advances `pc` to 2. -/
theorem startRunsSlotZeroFirst : Obligations.StartRunsSlotZeroFirst := by
  unfold Obligations.StartRunsSlotZeroFirst
  intro s hl
  refine ⟨s.setRun .running, hostApply_start_of_load hl, rfl, rfl, s.onlyControl_setRun .running, fun h => ?_⟩
  have hpc : (s.setRun .running).pc = 0 := h.load_pc hl
  have hstep := (stepRunsDecodedInstruction (s.setRun .running) rfl (by rw [hpc]; rfl)).1
  rw [hpc] at hstep
  exact hstep

/-! ## LoadInstr, StoreData and SetReg in Load -/

theorem hostApply_loadInstr_of_load {s : State} (hl : s.run = .load) (addr : AddressRef) (w : Word) :
    hostApply (.loadInstr addr w) s =
      if addr.segment = 0 ∧ addr.offset.toNat % 2 = 0 then ⟨s.putInstr (addr.offset.toNat / 2) w, .ok⟩
      else ⟨s, .error⟩ :=
  s.whenLoading_of_load _ hl

theorem hostApply_storeData_of_load {s : State} (hl : s.run = .load) (addr : AddressRef) (v : Word) :
    hostApply (.storeData addr v) s =
      if addr.segment = 1 ∧ addr.offset ≠ 511 then ⟨s.putDataWord addr.offset.toNat v, .ok⟩ else ⟨s, .error⟩ :=
  s.whenLoading_of_load _ hl

theorem hostApply_setReg_of_load {s : State} (hl : s.run = .load) (index : Int) (v : Word) :
    hostApply (.setReg index v) s =
      if 0 ≤ index ∧ index ≤ 15 then ⟨s.writeReg (Fin.ofNat 16 index.toNat) v, .ok⟩ else ⟨s, .ok⟩ :=
  s.whenLoading_of_load _ hl

/-- Settles O46: the check of the address decides, and a stored word changes its own slot alone. -/
theorem loadInstrStoresOrRejects : Obligations.LoadInstrStoresOrRejects := by
  unfold Obligations.LoadInstrStoresOrRejects
  intro addr w s hl
  rw [hostApply_loadInstr_of_load hl]
  constructor
  · intro hseg heven
    refine ⟨_, if_pos ⟨hseg, heven⟩, ?_, fun k hk => ?_, s.readReg_putInstr _ w, s.dataByte_putInstr _ w, rfl,
      rfl, rfl⟩
    · rw [State.instrAt_putInstr, if_pos rfl]
    · rw [State.instrAt_putInstr, if_neg hk]
  · rintro (hseg | hodd)
    · exact if_neg fun h => absurd (hseg.symm.trans h.1) (by decide)
    · exact if_neg fun h => absurd (hodd.symm.trans h.2) (by decide)

/-- Settles O47: the check of the address decides, and a stored value changes its own two bytes alone. -/
theorem storeDataWritesOrRejects : Obligations.StoreDataWritesOrRejects := by
  unfold Obligations.StoreDataWritesOrRejects
  intro addr v s hl
  rw [hostApply_storeData_of_load hl]
  constructor
  · intro hseg hlt
    have hne : addr.offset ≠ 511 := fun h => by simp [h] at hlt
    refine ⟨_, if_pos ⟨hseg, hne⟩, ?_, ?_, fun j hhi hlo => ?_, s.readReg_putDataWord _ v, s.instrAt_putDataWord _ v,
      rfl, rfl, rfl⟩
    · rw [State.dataByte_putDataWord_hi, hiByte_toNat]
    · rw [State.dataByte_putDataWord_lo, loByte_toNat]
    · rw [State.dataByte_putDataWord, if_neg hlo, if_neg hhi]
  · rintro (hseg | hlast)
    · exact if_neg fun h => absurd (hseg.symm.trans h.1) (by decide)
    · exact if_neg fun h => h.2 (BitVec.eq_of_toNat_eq hlast)

/-- Settles O48: an index in range names its own register. -/
theorem setRegWritesOrIgnores : Obligations.SetRegWritesOrIgnores := by
  unfold Obligations.SetRegWritesOrIgnores
  intro index v s hl
  rw [hostApply_setReg_of_load hl]
  constructor
  · rintro r rfl
    have hr : Fin.ofNat 16 (r.val : Int).toNat = r := Fin.ofNat_val_eq_self r
    refine ⟨s.writeReg r v, ?_, s.readReg_writeReg_same r v, s.onlyReg_writeReg r v⟩
    rw [if_pos (by omega), hr]
  · intro hout
    exact if_neg (by omega)

/-! ## Reads -/

theorem State.whenReadable_of_running {α : Type} (s : State) (h : s.run = .running) (v : α) :
    s.whenReadable v = none := if_pos h

theorem State.whenReadable_of_not_running {α : Type} (s : State) (h : s.run ≠ .running) (v : α) :
    s.whenReadable v = some v := if_neg h

/-- Settles O50: every write but reset is guarded by Load, every read by not Running, and reset by nothing. -/
theorem hostIsRefusedOutsideLoad : Obligations.HostIsRefusedOutsideLoad := by
  unfold Obligations.HostIsRefusedOutsideLoad
  intro s
  refine ⟨fun hl _ hop => hostApply_of_not_load hl hop, fun hr => ?_, rfl⟩
  exact ⟨fun _ => s.whenReadable_of_running hr _, fun _ => s.whenReadable_of_running hr _,
    fun _ => s.whenReadable_of_running hr _, s.whenReadable_of_running hr _, s.whenReadable_of_running hr _⟩

/-- Settles O51: outside Running each accessor answers, and only ReadRunState looks at the run-state for its answer. -/
theorem readAccessorsShowTheState : Obligations.ReadAccessorsShowTheState := by
  unfold Obligations.ReadAccessorsShowTheState
  intro s hr
  refine ⟨fun _ => s.whenReadable_of_not_running hr _, fun _ => s.whenReadable_of_not_running hr _,
    fun _ => s.whenReadable_of_not_running hr _, fun hf => ?_, fun hf => ?_, s.whenReadable_of_not_running hr _⟩
  · rw [hostReadRunState, s.whenReadable_of_not_running hr, if_pos hf, hf]
  · rw [hostReadRunState, s.whenReadable_of_not_running hr, if_neg hf]

end Sys2Proof.Machine
end

section
/-! PROOFS. The encoding vectors of spec/95_test_vectors.md section 2.1. -/

namespace Sys2Proof.Machine

/-- Settles O5: each word is its row's four fields side by side, opcode first, and these fields read as the listed
instruction. -/
theorem listedWordsDecode : Obligations.ListedWordsDecode := by
  unfold Obligations.ListedWordsDecode
  exact ⟨decode_append 0 0 0 0, decode_append 1 0 0 3, decode_append 1 1 0 15, decode_append 3 1 1 8,
    decode_append 6 15 14 13, decode_append 8 0 1 2, decode_append 10 1 2 3, decode_append 12 0 15 10,
    decode_append 12 5 7 14, decode_append 13 1 0 8, decode_append 13 3 8 0, decode_append 14 0 0 0,
    decode_append 14 15 15 15, decode_append 4 10 11 12, decode_append 15 15 15 15⟩

end Sys2Proof.Machine
end
